-- ==== Sys2Proof/Word.lean ====
section
/-! DEFINITION. The word types of spec/10_state.md and spec/30_encoding.md: every value of this machine is an
unsigned number of a stated width (00_scope.md R7). -/

namespace Sys2Proof

/-- A byte: a general register, a timer, a cell of memory, an immediate `kk` (R13, R21, R40, R61). -/
abbrev Byte := BitVec 8

/-- A 16-bit word: an instruction, `I`, `PC`, a stack entry (R15, R17, R19, R60). -/
abbrev Word := BitVec 16

/-- The 12-bit address field `nnn` of an instruction (R61). -/
abbrev Addr12 := BitVec 12

/-- The 4-bit field `n` of an instruction (R61). -/
abbrev Nibble := BitVec 4

/-- The number of a general register, 0 to 15: `x`, `y` of an instruction, the target of a key wait (R13, R25). -/
abbrev Reg := Fin 16

end Sys2Proof
end

