-- ==== Sys2Proof/Machine/Flags.lean ====
section
/-! DEFINITION. The values the flag instructions write to `VF` (10_state.md R14), each computed from the latched
operands (40_step_cycle.md R84). -/

namespace Sys2Proof.Machine

/-- A flag as the byte `VF` takes: 1 or 0 (R14). -/
def flagByte (b : Bool) : Byte := if b then 1 else 0

/-- Carry of `8XY4`: the unbounded sum exceeds 255 (42_alu.md R126, R132). -/
def carryFlag (a b : Byte) : Byte := flagByte (decide (a.toNat + b.toNat > 255))

/-- No borrow of `8XY5` and `8XY7`: minuend ≥ subtrahend (R127, R129, R132). -/
def noBorrowFlag (minuend subtrahend : Byte) : Byte := flagByte (decide (minuend.toNat ≥ subtrahend.toNat))

/-- The bit `8XY6` shifts out: bit 0 (R128). -/
def lowBitFlag (a : Byte) : Byte := a &&& 1

/-- The bit `8XYE` shifts out: bit 7 (R130). -/
def highBitFlag (a : Byte) : Byte := a >>> 7

/-- Overflow of `FX1E`: the unbounded sum exceeds 4095 (43_index_memory.md R141; 0 otherwise: D12). -/
def indexOverflowFlag (i : Word) (a : Byte) : Byte := flagByte (decide (i.toNat + a.toNat > 4095))

/-- Collision of `DXYN`: some pixel went from set to unset (44_display.md R161). -/
def collisionFlag (collided : Bool) : Byte := flagByte collided

end Sys2Proof.Machine
end

