-- ==== Sys2Proof/Syntax.lean ====
section
/-! DEFINITION. The instructions: one constructor for each of the 35 rows of spec/opcode_table.json, in the order of
the decode table (30_encoding.md R64). Operands are the fields of R61 the row leaves free, the ignored ones included
(R72), so that no bit of a word is lost. -/

namespace Sys2Proof

/-- An instruction of the decode table of 30_encoding.md R64. -/
inductive Instr where
  /-- `00E0`, CLS (R160). -/
  | cls
  /-- `00EE`, RET (R101). -/
  | ret
  /-- `0NNN`, SYS nnn: the no-op (R100). -/
  | sys (nnn : Addr12)
  /-- `1NNN`, JP nnn (R102). -/
  | jp (nnn : Addr12)
  /-- `2NNN`, CALL nnn (R103). -/
  | call (nnn : Addr12)
  /-- `3XKK`, SE Vx, kk (R105). -/
  | seImm (x : Reg) (kk : Byte)
  /-- `4XKK`, SNE Vx, kk (R106). -/
  | sneImm (x : Reg) (kk : Byte)
  /-- `5XY0`, SE Vx, Vy (R107). -/
  | seReg (x y : Reg)
  /-- `6XKK`, LD Vx, kk (R120). -/
  | ldImm (x : Reg) (kk : Byte)
  /-- `7XKK`, ADD Vx, kk (R121). -/
  | addImm (x : Reg) (kk : Byte)
  /-- `8XY0`, LD Vx, Vy (R122). -/
  | ldReg (x y : Reg)
  /-- `8XY1`, OR Vx, Vy (R123). -/
  | orReg (x y : Reg)
  /-- `8XY2`, AND Vx, Vy (R124). -/
  | andReg (x y : Reg)
  /-- `8XY3`, XOR Vx, Vy (R125). -/
  | xorReg (x y : Reg)
  /-- `8XY4`, ADD Vx, Vy (R126). -/
  | addReg (x y : Reg)
  /-- `8XY5`, SUB Vx, Vy (R127). -/
  | subReg (x y : Reg)
  /-- `8XY6`, SHR Vx, Vy; `y` is ignored (R128, R72). -/
  | shrReg (x y : Reg)
  /-- `8XY7`, SUBN Vx, Vy (R129). -/
  | subnReg (x y : Reg)
  /-- `8XYE`, SHL Vx, Vy; `y` is ignored (R130, R72). -/
  | shlReg (x y : Reg)
  /-- `9XY0`, SNE Vx, Vy (R108). -/
  | sneReg (x y : Reg)
  /-- `ANNN`, LD I, nnn (R140). -/
  | ldI (nnn : Addr12)
  /-- `BNNN`, JP V0, nnn (R104). -/
  | jpV0 (nnn : Addr12)
  /-- `CXKK`, RND Vx, kk (R131). -/
  | rnd (x : Reg) (kk : Byte)
  /-- `DXYN`, DRW Vx, Vy, n (R161). -/
  | drw (x y : Reg) (n : Nibble)
  /-- `EX9E`, SKP Vx (R170). -/
  | skp (x : Reg)
  /-- `EXA1`, SKNP Vx (R171). -/
  | sknp (x : Reg)
  /-- `FX07`, LD Vx, DT (R172). -/
  | ldVxDt (x : Reg)
  /-- `FX0A`, LD Vx, K (R173). -/
  | ldVxK (x : Reg)
  /-- `FX15`, LD DT, Vx (R174). -/
  | ldDtVx (x : Reg)
  /-- `FX18`, LD ST, Vx (R175). -/
  | ldStVx (x : Reg)
  /-- `FX1E`, ADD I, Vx (R141). -/
  | addI (x : Reg)
  /-- `FX29`, LD F, Vx (R142). -/
  | ldF (x : Reg)
  /-- `FX33`, LD B, Vx (R143). -/
  | ldB (x : Reg)
  /-- `FX55`, LD [I], Vx (R144). -/
  | ldMemVx (x : Reg)
  /-- `FX65`, LD Vx, [I] (R145). -/
  | ldVxMem (x : Reg)
  deriving DecidableEq, Repr

end Sys2Proof
end

