-- ==== Sys2Proof/Decode.lean ====
section
/-! DEFINITION. Decoding (30_encoding.md R60 to R69): the ordered table of mask and pattern pairs, its first-match
scan, a total decoder of bytes that rejects by name, and the encoder written from the same table. -/

namespace Sys2Proof

/-! ## Fields (R61) -/

/-- `x = w[11:8]` (R61). -/
def xField (w : Word) : Reg := (w.extractLsb' 8 4).toFin

/-- `y = w[7:4]` (R61). -/
def yField (w : Word) : Reg := (w.extractLsb' 4 4).toFin

/-- `n = w[3:0]` (R61). -/
def nField (w : Word) : Nibble := w.extractLsb' 0 4

/-- `nnn = w[11:0]` (R61). -/
def nnnField (w : Word) : Addr12 := w.extractLsb' 0 12

/-- `kk = w[7:0]` (R61). -/
def kkField (w : Word) : Byte := w.extractLsb' 0 8

/-! ## The decode table (R64) -/

/-- A row of the decode table: a word matches it when `(w & mask) = pattern` (R63); `read` takes the operand fields
out of a matching word. -/
structure Row where
  mask : Word
  pattern : Word
  read : Word → Instr

/-- The test of R63. -/
def Row.hits (r : Row) (w : Word) : Bool := w &&& r.mask == r.pattern

/-- Ids 0 to 9 of R64: the special forms, jumps, skips and immediates. -/
def rowsLow : List Row := [
  ⟨0xFFFF#16, 0x00E0#16, fun _ => .cls⟩,
  ⟨0xFFFF#16, 0x00EE#16, fun _ => .ret⟩,
  ⟨0xF000#16, 0x0000#16, fun w => .sys (nnnField w)⟩,
  ⟨0xF000#16, 0x1000#16, fun w => .jp (nnnField w)⟩,
  ⟨0xF000#16, 0x2000#16, fun w => .call (nnnField w)⟩,
  ⟨0xF000#16, 0x3000#16, fun w => .seImm (xField w) (kkField w)⟩,
  ⟨0xF000#16, 0x4000#16, fun w => .sneImm (xField w) (kkField w)⟩,
  ⟨0xF00F#16, 0x5000#16, fun w => .seReg (xField w) (yField w)⟩,
  ⟨0xF000#16, 0x6000#16, fun w => .ldImm (xField w) (kkField w)⟩,
  ⟨0xF000#16, 0x7000#16, fun w => .addImm (xField w) (kkField w)⟩]

/-- Ids 10 to 18 of R64: family 8, told apart by the low nibble. -/
def rowsEight : List Row := [
  ⟨0xF00F#16, 0x8000#16, fun w => .ldReg (xField w) (yField w)⟩,
  ⟨0xF00F#16, 0x8001#16, fun w => .orReg (xField w) (yField w)⟩,
  ⟨0xF00F#16, 0x8002#16, fun w => .andReg (xField w) (yField w)⟩,
  ⟨0xF00F#16, 0x8003#16, fun w => .xorReg (xField w) (yField w)⟩,
  ⟨0xF00F#16, 0x8004#16, fun w => .addReg (xField w) (yField w)⟩,
  ⟨0xF00F#16, 0x8005#16, fun w => .subReg (xField w) (yField w)⟩,
  ⟨0xF00F#16, 0x8006#16, fun w => .shrReg (xField w) (yField w)⟩,
  ⟨0xF00F#16, 0x8007#16, fun w => .subnReg (xField w) (yField w)⟩,
  ⟨0xF00F#16, 0x800E#16, fun w => .shlReg (xField w) (yField w)⟩]

/-- Ids 19 to 25 of R64. -/
def rowsMid : List Row := [
  ⟨0xF00F#16, 0x9000#16, fun w => .sneReg (xField w) (yField w)⟩,
  ⟨0xF000#16, 0xA000#16, fun w => .ldI (nnnField w)⟩,
  ⟨0xF000#16, 0xB000#16, fun w => .jpV0 (nnnField w)⟩,
  ⟨0xF000#16, 0xC000#16, fun w => .rnd (xField w) (kkField w)⟩,
  ⟨0xF000#16, 0xD000#16, fun w => .drw (xField w) (yField w) (nField w)⟩,
  ⟨0xF0FF#16, 0xE09E#16, fun w => .skp (xField w)⟩,
  ⟨0xF0FF#16, 0xE0A1#16, fun w => .sknp (xField w)⟩]

/-- Ids 26 to 34 of R64: family F, told apart by the low byte. -/
def rowsF : List Row := [
  ⟨0xF0FF#16, 0xF007#16, fun w => .ldVxDt (xField w)⟩,
  ⟨0xF0FF#16, 0xF00A#16, fun w => .ldVxK (xField w)⟩,
  ⟨0xF0FF#16, 0xF015#16, fun w => .ldDtVx (xField w)⟩,
  ⟨0xF0FF#16, 0xF018#16, fun w => .ldStVx (xField w)⟩,
  ⟨0xF0FF#16, 0xF01E#16, fun w => .addI (xField w)⟩,
  ⟨0xF0FF#16, 0xF029#16, fun w => .ldF (xField w)⟩,
  ⟨0xF0FF#16, 0xF033#16, fun w => .ldB (xField w)⟩,
  ⟨0xF0FF#16, 0xF055#16, fun w => .ldMemVx (xField w)⟩,
  ⟨0xF0FF#16, 0xF065#16, fun w => .ldVxMem (xField w)⟩]

/-- `DECODE`: the 35 rows in scan order (R64). -/
def decodeTable : List Row := rowsLow ++ rowsEight ++ rowsMid ++ rowsF

/-- `decode(w)`: the first row that matches, or no match (R63). -/
def decodeWord (w : Word) : Option Instr := (decodeTable.find? (·.hits w)).map (·.read w)

/-! ## Decoding bytes -/

/-- Why bytes are no instruction. -/
inductive DecodeReject where
  /-- Fewer than the two bytes a word takes (R60). -/
  | truncated
  /-- The word matches no row of the table (R67). -/
  | noMatch (w : Word)
  deriving DecidableEq, Repr

/-- A word from its two bytes, the byte at the lower address first: it is the high byte (20_memory.md R43). -/
def joinBytes (hi lo : Byte) : Word := hi ++ lo

/-- The high byte of a word, which lies at the lower address (R43). -/
def highByte (w : Word) : Byte := w.extractLsb' 8 8

/-- The low byte of a word, which lies at the higher address (R43). -/
def lowByte (w : Word) : Byte := w.extractLsb' 0 8

/-- Decode the instruction at the head of a list of bytes; a decoder always consumes 2 bytes (R60). -/
def decode : List Byte → Except DecodeReject (Instr × List Byte)
  | hi :: lo :: rest =>
    match decodeWord (joinBytes hi lo) with
    | some i => .ok (i, rest)
    | none => .error (.noMatch (joinBytes hi lo))
  | [_] => .error .truncated
  | [] => .error .truncated

/-! ## Encoding (R61, R64) -/

/-- A register number as the 4-bit field it is encoded in (R61). -/
def regBits (r : Reg) : Nibble := BitVec.ofFin (w := 4) r

/-- Opcode nibble and 12-bit address. -/
def wordNNN (op : Nibble) (nnn : Addr12) : Word := op ++ nnn

/-- Opcode nibble, register, and 8-bit immediate or minor opcode. -/
def wordXKK (op : Nibble) (x : Reg) (kk : Byte) : Word := op ++ regBits x ++ kk

/-- Opcode nibble, two registers, and 4-bit immediate or minor opcode. -/
def wordXYN (op : Nibble) (x y : Reg) (n : Nibble) : Word := op ++ regBits x ++ regBits y ++ n

/-- The word of an instruction, from the patterns of R64. -/
def encode : Instr → Word
  | .cls => 0x00E0#16
  | .ret => 0x00EE#16
  | .sys nnn => wordNNN 0x0 nnn
  | .jp nnn => wordNNN 0x1 nnn
  | .call nnn => wordNNN 0x2 nnn
  | .seImm x kk => wordXKK 0x3 x kk
  | .sneImm x kk => wordXKK 0x4 x kk
  | .seReg x y => wordXYN 0x5 x y 0x0
  | .ldImm x kk => wordXKK 0x6 x kk
  | .addImm x kk => wordXKK 0x7 x kk
  | .ldReg x y => wordXYN 0x8 x y 0x0
  | .orReg x y => wordXYN 0x8 x y 0x1
  | .andReg x y => wordXYN 0x8 x y 0x2
  | .xorReg x y => wordXYN 0x8 x y 0x3
  | .addReg x y => wordXYN 0x8 x y 0x4
  | .subReg x y => wordXYN 0x8 x y 0x5
  | .shrReg x y => wordXYN 0x8 x y 0x6
  | .subnReg x y => wordXYN 0x8 x y 0x7
  | .shlReg x y => wordXYN 0x8 x y 0xE
  | .sneReg x y => wordXYN 0x9 x y 0x0
  | .ldI nnn => wordNNN 0xA nnn
  | .jpV0 nnn => wordNNN 0xB nnn
  | .rnd x kk => wordXKK 0xC x kk
  | .drw x y n => wordXYN 0xD x y n
  | .skp x => wordXKK 0xE x 0x9E
  | .sknp x => wordXKK 0xE x 0xA1
  | .ldVxDt x => wordXKK 0xF x 0x07
  | .ldVxK x => wordXKK 0xF x 0x0A
  | .ldDtVx x => wordXKK 0xF x 0x15
  | .ldStVx x => wordXKK 0xF x 0x18
  | .addI x => wordXKK 0xF x 0x1E
  | .ldF x => wordXKK 0xF x 0x29
  | .ldB x => wordXKK 0xF x 0x33
  | .ldMemVx x => wordXKK 0xF x 0x55
  | .ldVxMem x => wordXKK 0xF x 0x65

/-- The two bytes of an instruction in the order memory holds them (R43). -/
def encodeBytes (i : Instr) : List Byte := [highByte (encode i), lowByte (encode i)]

/-! ## The host's reading of a row of the opcode table -/

/-- What the decoder reads from an instruction whose bits are `w`, numbered as spec/opcode_table.json numbers them:
the one word of an instruction is bits 15 to 0, laid out high byte first (R43); bits at and above `nbits` are 0. -/
def decodeTableWord (nbits w : Nat) : Option Instr :=
  match decode [highByte (BitVec.ofNat 16 (w % 2 ^ nbits)), lowByte (BitVec.ofNat 16 (w % 2 ^ nbits))] with
  | .ok (i, _) => some i
  | .error _ => none

end Sys2Proof
end

