-- ==== Sys2Proof/Config.lean ====
section
/-! DEFINITION. What an implementation fixes (00_scope.md R5) and the one free value of the model. The parameters
`FONT` and `SPRITE_MSB_LEFT` stand in Machine/Params.lean; `RESET_ZERO` is true (log entry 3). -/

namespace Sys2Proof.Config

/-- `MEM_SIZE`: 4096 bytes (R5, R40). -/
abbrev memSize : Nat := 4096

/-- `PROG_BASE`: where a program is loaded, and the first `PC` (R5, R48). -/
abbrev progBase : Nat := 0x200

/-- `STACK_DEPTH`: 16 return addresses (R5, R19). -/
abbrev stackDepth : Nat := 16

/-- `NKEYS`: 16 logical keys (R5, R24). -/
abbrev nKeys : Nat := 16

/-- `FB_W`: 64 pixels (R5, R23). -/
abbrev fbWidth : Nat := 64

/-- `FB_H`: 32 pixels (R5, R23). -/
abbrev fbHeight : Nat := 32

/-- The framebuffer's pixels: 64 × 32 = 2048 (R5, R23). -/
abbrev nPixels : Nat := 2048

/-- The number of bytes of one font glyph (R5). -/
abbrev glyphSize : Nat := 5

/-- The wrap modulus of `FX1E` (R5, R141). -/
abbrev indexModulus : Nat := 4096

/-- The value the `k`-th `CXKK` of a run draws, for the immediate `kk`: ANY value in `[0, kk]`, under no law but
that bound (42_alu.md R131, 60_exceptions.md R215; 92_eei_decisions.md D22). It has no body, so nothing in Lean can
evaluate it: a statement about a draw holds for every draw. Log entry 1: safe for a claim about one run; unsafe for one that
compares two engines, which in the model take their draws from this one sequence. -/
opaque draw : Nat → (kk : Byte) → Fin (kk.toNat + 1)

end Sys2Proof.Config
end

