-- ==== Sys2Proof/Machine/Params.lean ====
section
/-! DEFINITION. The parameters the source leaves open, at the defaults the spec gives them (00_scope.md R5). -/

namespace Sys2Proof.Machine

/-- `FONT`: 16 glyphs of 5 bytes. PRESUMED: the spec's default is the conventional font, from general knowledge
(10_state.md R28, 92_eei_decisions.md D4, 93_implementation_defined.md G1). Log entry 4: unsafe for a statement that
reads glyph bytes. -/
def font : List Byte :=
  [0xF0, 0x90, 0x90, 0x90, 0xF0] ++ [0x20, 0x60, 0x20, 0x20, 0x70] ++
  [0xF0, 0x10, 0xF0, 0x80, 0xF0] ++ [0xF0, 0x10, 0xF0, 0x10, 0xF0] ++
  [0x90, 0x90, 0xF0, 0x10, 0x10] ++ [0xF0, 0x80, 0xF0, 0x10, 0xF0] ++
  [0xF0, 0x80, 0xF0, 0x90, 0xF0] ++ [0xF0, 0x10, 0x20, 0x40, 0x40] ++
  [0xF0, 0x90, 0xF0, 0x90, 0xF0] ++ [0xF0, 0x90, 0xF0, 0x10, 0xF0] ++
  [0xF0, 0x90, 0xF0, 0x90, 0x90] ++ [0xE0, 0x90, 0xE0, 0x90, 0xE0] ++
  [0xF0, 0x80, 0x80, 0x80, 0xF0] ++ [0xE0, 0x90, 0x90, 0x90, 0xE0] ++
  [0xF0, 0x80, 0xF0, 0x80, 0xF0] ++ [0xF0, 0x80, 0xF0, 0x80, 0x80]

/-- `SPRITE_MSB_LEFT`: bit 7 of a sprite byte is its leftmost pixel. PRESUMED: from general knowledge
(44_display.md R162, 92_eei_decisions.md D19, 93_implementation_defined.md G2). Log entry 5: unsafe for a statement
about pixel positions. -/
def spriteMsbLeft : Bool := true

end Sys2Proof.Machine
end

