-- ==== Sys2Proof/Machine/State.lean ====
section
/-! DEFINITION. The machine's state as plain data (10_state.md), the reasons a step stops, and the state after
construction (10_state.md R28, 70_reset_and_hazards.md R230). -/

namespace Sys2Proof.Machine

/-- Memory: (address, byte) cells, addresses strictly rising, no cell equal to what an unlisted address reads as
(`bootByte` in Machine/Memory.lean; `Memory.wf` says the form holds). -/
abbrev Memory := List Host.Cell

/-- The framebuffer: 32 rows of 64 one-bit pixels; bit `x` of row `y` is pixel `(x, y)`, flat index `y*64+x` (R23). -/
abbrev Screen := Vector (BitVec 64) 32

/-- `WAIT`, the wait-for-key latch (R25). -/
structure WaitLatch where
  /-- A step only looks for a key while this is true. -/
  active : Bool
  /-- The register the key goes to; without meaning while `active` is false. -/
  target : Reg
  deriving DecidableEq, Repr

/-- The record of 10_state.md, and one field of the model's own (`draws`). -/
structure State where
  /-- The 4096 bytes of memory (R40). -/
  mem : Memory
  /-- `V[0..15]` (R13); `V[15]` is `VF`, the flags register (R14). -/
  v : Vector Byte 16
  /-- `I`, the address register (R15). -/
  i : Word
  /-- `PC` (R17). -/
  pc : Word
  /-- `SP`, the number of live stack entries, in [0,16] (R19). -/
  sp : Fin 17
  /-- `stack[0..15]`, the return addresses (R19). -/
  stack : Vector Word 16
  /-- `DT`, the delay timer (R21). -/
  dt : Byte
  /-- `ST`, the sound timer (R22). -/
  st : Byte
  /-- `FB`, the framebuffer (R23). -/
  fb : Screen
  /-- `KEY[0..15]`, the keyboard latch: true means pressed (R24). -/
  key : Vector Bool 16
  /-- `WAIT`, the wait-for-key latch (R25). -/
  wait : WaitLatch
  /-- The model's own: how many `CXKK` values have been drawn; it names the next free value (log entry 1,
  which also says what two engines draw). -/
  draws : Nat
  deriving DecidableEq, Repr

/-- The space an out-of-bounds index lies in (60_exceptions.md R200). -/
inductive Space where
  /-- Memory: an address outside [0, 4096). -/
  | mem
  /-- The keyboard latch: a key number above 15. -/
  | key
  deriving DecidableEq, Repr

/-- The error statuses of `step` (60_exceptions.md R200). A fault ends the step with the state as it was before it
(40_step_cycle.md R89; log entry 2): safe, since the status is the whole effect the spec gives. -/
inductive Fault where
  /-- `DecodeError(pc, word)`: raised by the decode stage when no row matches (R201). Safe. -/
  | decodeError (pc : Word) (word : Word)
  /-- `StackOverflow`: raised by `2NNN` with 16 live entries (R202). Safe. -/
  | stackOverflow
  /-- `StackUnderflow`: raised by `00EE` with an empty stack (R203). Safe. -/
  | stackUnderflow
  /-- `OutOfBoundsAccess(pc, space, addr)`: raised by the fetch, `DXYN`, `FX33`, `FX55`, `FX65` (MEM) and by
  `EX9E`, `EXA1` (KEY); `addr` is the first address or key index outside its space (R204). Safe. -/
  | outOfBounds (pc : Word) (space : Space) (addr : Nat)
  deriving DecidableEq, Repr

/-- The model's refusals. Every instruction of this machine has its meaning, so no step answers one. -/
inductive Refusal where
  /-- An instruction without a meaning, by its mnemonic: raised by no arm of `exec`. Safe. -/
  | notModelled (mnemonic : String)
  deriving DecidableEq, Repr

/-- The outcome of a step or of an instruction. -/
abbrev Result := Host.Outcome State Fault Refusal

/-- The state right after construction (10_state.md R28). `PC` and memory are the source's; every zero is the
spec's own decision D3 with `RESET_ZERO` true (log entry 3: unsafe); memory lists nothing, so it reads as FONT and
zeros. DESIGN CHOICE: `draws` is 0 in every constructed engine, so two engines, or one built again, draw the same
`CXKK` values in the model; the spec leaves every draw free (60_exceptions.md R215; 91_not_in_source.md N17) and no
statement rests on their values agreeing (log entry 1: unsafe for a comparison of two engines). -/
def State.reset : State where
  mem := []
  v := Vector.replicate 16 0
  i := 0
  pc := 0x200
  sp := 0
  stack := Vector.replicate 16 0
  dt := 0
  st := 0
  fb := Vector.replicate 32 0
  key := Vector.replicate 16 false
  wait := { active := false, target := 0 }
  draws := 0

end Sys2Proof.Machine
end

