-- ==== Sys2Proof/Machine/Memory.lean ====
section
/-! DEFINITION. The memory's named operations over its canonical list of cells (20_memory.md R40, R47, R48). Reading
and writing obey the two memory laws on any list; the canonical form makes equal memories equal data. -/

namespace Sys2Proof.Machine

/-- What an address nothing has written reads as: the construction contents, FONT at 0x000 to 0x04F and 0 elsewhere
(10_state.md R28, 20_memory.md R48). -/
def bootByte (a : Nat) : Byte := font.getD a 0

/-- The byte at an address (R40, R47). -/
def readCell : Memory → Nat → Byte
  | [], a => bootByte a
  | c :: m, a => if c.1 = a then c.2 else readCell m a

/-- Put a cell before the first one of a higher address. -/
def insertCell : Memory → Nat → Byte → Memory
  | [], a, b => [(a, b)]
  | c :: m, a, b => if a < c.1 then (a, b) :: c :: m else c :: insertCell m a b

/-- Write one byte (R47), keeping the canonical form: a byte equal to what the unlisted address reads as is not
listed. -/
def writeCell (m : Memory) (a : Nat) (b : Byte) : Memory :=
  if b = bootByte a then m.filter (·.1 ≠ a) else insertCell (m.filter (·.1 ≠ a)) a b

/-- The `n` bytes at `a .. a+n-1`, in ascending address order (R41). -/
def readCells (m : Memory) : (a n : Nat) → List Byte
  | _, 0 => []
  | a, n + 1 => readCell m a :: readCells m (a + 1) n

/-- Write bytes at `a`, `a+1`, … in ascending address order (R41, R46). -/
def writeCells : Memory → Nat → List Byte → Memory
  | m, _, [] => m
  | m, a, b :: bs => writeCells (writeCell m a b) (a + 1) bs

/-- The canonical form: addresses strictly rise and lie in memory, and no cell is one an unlisted address reads
as. -/
abbrev Memory.wf (m : Memory) : Prop :=
  m.Pairwise (fun c d => c.1 < d.1) ∧ ∀ c ∈ m, c.1 < Config.memSize ∧ c.2 ≠ bootByte c.1

end Sys2Proof.Machine
end

