-- ==== Sys2Proof/Machine/Ops.lean ====
section
/-! DEFINITION. The named operations over the state: the primitives of 00_scope.md R8, the stack (10_state.md R19),
the checked memory accesses (20_memory.md R41), the end of a step by an error (40_step_cycle.md R89), the PC updates
(R86) and the stages of a step around the execute stage (R81, R82, R88). This machine has no trap entry and no return
from one (60_exceptions.md R206, R207): an error is `raiseError`. -/

namespace Sys2Proof.Machine

/-! ## Registers, pixels, bytes -/

/-- `V[r]` (R8, R13). -/
def State.getV (s : State) (r : Reg) : Byte := s.v[r]

/-- `V[r] <- b` (R8, R13). -/
def State.setV (s : State) (r : Reg) (b : Byte) : State := { s with v := s.v.set r b }

/-- `VF`'s number (R14). -/
abbrev vf : Reg := 15

/-- Is pixel `p` of a screen set: bit `p mod 64` of row `p // 64` (R23). There is no pixel at or above 2048. -/
def screenPixel (fb : Screen) (p : Nat) : Bool := if h : p / 64 < 32 then fb[p / 64].getLsbD (p % 64) else false

/-- `FB[p]`: is pixel `p` set (R8, R23). -/
def State.pixel (s : State) (p : Nat) : Bool := screenPixel s.fb p

/-- The byte of memory at an address (R40). -/
def State.byteAt (s : State) (a : Nat) : Byte := readCell s.mem a

/-! ## Errors (R89) -/

/-- `raise E(info)`: the step ends at once with this status; nothing is written, `PC` is not advanced and the timers
do not tick (40_step_cycle.md R89, 60_exceptions.md R206). -/
def raiseError (f : Fault) : Result := .fault f

/-! ## Memory accesses (20_memory.md R41) -/

/-- The status of an access of `n` bytes at `a` that does not lie wholly in memory: its address is the lowest one of
the access outside memory (R41, R204). -/
def memError (s : State) (a : Nat) : Fault := .outOfBounds s.pc .mem (max a Config.memSize)

/-- `MemRead(a, n)`, n ≥ 1: the whole access is checked before any byte moves (R41). -/
def memRead (s : State) (a n : Nat) : Except Fault (List Byte) :=
  if a + n - 1 ≥ Config.memSize then .error (memError s a) else .ok (readCells s.mem a n)

/-- `MemWrite(a, n, bytes)`, n ≥ 1: the whole access is checked before any byte moves (R41). -/
def memWrite (s : State) (a : Nat) (bytes : List Byte) : Except Fault State :=
  if a + bytes.length - 1 ≥ Config.memSize then .error (memError s a)
  else .ok { s with mem := writeCells s.mem a bytes }

/-! ## The call stack (10_state.md R19) -/

/-- `Push(v)`: the check comes before any write (R19). -/
def push (s : State) (w : Word) : Except Fault State :=
  if h : s.sp.val < 16 then
    .ok { s with stack := s.stack.set s.sp.val w, sp := ⟨s.sp.val + 1, by omega⟩ }
  else .error .stackOverflow

/-- `Pop()`: the newest live entry and the state without it (R19). -/
def pop (s : State) : Except Fault (Word × State) :=
  if h : 0 < s.sp.val then
    .ok (s.stack[s.sp.val - 1], { s with sp := ⟨s.sp.val - 1, by omega⟩ })
  else .error .stackUnderflow

/-! ## PC updates (40_step_cycle.md R86) -/

/-- `PC <- PC + 2` (R86). -/
def advance (s : State) : State := { s with pc := s.pc + 2 }

/-- `PC <- cond ? PC + 4 : PC + 2` (R86, R109). -/
def skipIf (cond : Bool) (s : State) : State := { s with pc := if cond then s.pc + 4 else s.pc + 2 }

/-- `PC <- target`, with no further advance (R86, R87). -/
def jumpTo (s : State) (target : Word) : State := { s with pc := target }

/-! ## The stages of a step around the execute stage (40_step_cycle.md) -/

/-- The lowest pressed key, if any (R81). -/
def firstKey (s : State) : Option Nat := s.key.toList.findIdx? id

/-- Stage 0 of a step that waits: the lowest pressed key goes to the target register and ends the wait; with no key
pressed nothing changes (R81). -/
def waitStage (s : State) : State :=
  match firstKey s with
  | some k => { s.setV s.wait.target (BitVec.ofNat 8 k) with wait := { s.wait with active := false } }
  | none => s

/-- Stage 1, fetch: the big-endian word at `PC`, which must lie wholly in memory (R82, R43). -/
def fetchWord (s : State) : Except Fault Word :=
  if s.pc.toNat + 1 ≥ Config.memSize then .error (memError s s.pc.toNat)
  else .ok (joinBytes (s.byteAt s.pc.toNat) (s.byteAt (s.pc.toNat + 1)))

/-- A timer counts down by 1 and stops at 0 (R88, R21, R22). -/
def countDown (t : Byte) : Byte := if t = 0 then 0 else t - 1

/-- Stage 5, the tick: both timers count down unless the instruction has entered the key wait (R88). -/
def tick (s : State) : State :=
  if s.wait.active then s else { s with dt := countDown s.dt, st := countDown s.st }

/-- The end of a step: the tick follows an execute stage that raised nothing (R88, R89). -/
def finishStep : Result → Result
  | .next t => .next (tick t)
  | .fault f => raiseError f
  | .refused r => .refused r

end Sys2Proof.Machine
end

