-- ==== Sys2Proof/Machine/Operands.lean ====
section
/-! DEFINITION. The operand forms: immediates and addresses widened (30_encoding.md R62), results computed on
unbounded integers and narrowed (42_alu.md R132), decimal digits, register runs, key numbers, sprite bits and pixel
numbers. -/

namespace Sys2Proof.Machine

/-- `zext_16(nnn)` (R62). -/
def zext12 (nnn : Addr12) : Word := nnn.setWidth 16

/-- `zext_16` of a byte (R7). -/
def zext8 (b : Byte) : Word := b.setWidth 16

/-- `(a + b) mod 256` from the unbounded sum (R132). -/
def addBytes (a b : Byte) : Byte := BitVec.ofNat 8 (a.toNat + b.toNat)

/-- `(a - b) mod 256` from the unbounded difference (R132). -/
def subBytes (a b : Byte) : Byte := BitVec.ofInt 8 ((a.toNat : Int) - (b.toNat : Int))

/-- `(i0 + a) mod 4096` from the unbounded sum (43_index_memory.md R141). -/
def addIndex (i : Word) (a : Byte) : Word := BitVec.ofNat 16 ((i.toNat + a.toNat) % Config.indexModulus)

/-- The address of glyph `a`: `5 * a` in 16 bits, not masked (R142). -/
def glyphAddress (a : Byte) : Word := BitVec.ofNat 16 (Config.glyphSize * a.toNat)

/-- Hundreds, tens and units of a byte (R143). -/
def decimalDigits (a : Byte) : List Byte :=
  [BitVec.ofNat 8 (a.toNat / 100), BitVec.ofNat 8 (a.toNat / 10 % 10), BitVec.ofNat 8 (a.toNat % 10)]

/-- `[V[0], …, V[x]]` (R144). -/
def registerRun (s : State) (x : Reg) : List Byte := s.v.toList.take (x.val + 1)

/-- Load bytes into consecutive registers from `V[j]` on (R145). -/
def loadRun (v : Vector Byte 16) (j : Nat) : List Byte → Vector Byte 16
  | [] => v
  | b :: bs => loadRun (v.setIfInBounds j b) (j + 1) bs

/-- `KEY[a]` for a key number held in a register; a number above 15 names no key and is an error
(45_keys_timers.md R170, R171; D18). -/
def readKey (s : State) (a : Byte) : Except Fault Bool :=
  if h : a.toNat < 16 then .ok s.key[a.toNat] else .error (.outOfBounds s.pc .key a.toNat)

/-- The bit of a sprite row that column `c`, 0 to 7 from the left, shows (44_display.md R162). -/
def spriteBit (msbLeft : Bool) (row : Byte) (c : Nat) : Bool :=
  if msbLeft then row.getLsbD (7 - c) else row.getLsbD c

/-- The number of the pixel at column `px`, row `py`, both axes wrapping (10_state.md R23, 44_display.md R163). -/
def pixelIndex (px py : Nat) : Nat := py % Config.fbHeight * Config.fbWidth + px % Config.fbWidth

end Sys2Proof.Machine
end

