-- ==== Sys2Proof/Machine/Alu.lean ====
section
/-! DEFINITION. The register ALU (42_alu.md). Operands are the values before the instruction (40_step_cycle.md R84);
where result and flag go to the same register, the write the rule lists last stays (R85). -/

namespace Sys2Proof.Machine

/-- The shape of an instruction that writes one register and moves on. -/
def writeReg (x : Reg) (b : Byte) (s : State) : Result := .next (advance (s.setV x b))

/-- Result first, flag last: the flag stays when `x = 15` (R85, first row). -/
def writeResultThenFlag (x : Reg) (result flag : Byte) (s : State) : Result :=
  .next (advance ((s.setV x result).setV vf flag))

/-- Flag first, result last: the result stays when `x = 15` (R85, second and third rows). -/
def writeFlagThenResult (x : Reg) (flag result : Byte) (s : State) : Result :=
  .next (advance ((s.setV vf flag).setV x result))

/-- `6XKK`, load an immediate (R120). -/
def execLdImm (x : Reg) (kk : Byte) (s : State) : Result := writeReg x kk s

/-- `7XKK`, add an immediate, no flag (R121). -/
def execAddImm (x : Reg) (kk : Byte) (s : State) : Result := writeReg x (addBytes (s.getV x) kk) s

/-- `8XY0`, copy (R122). -/
def execLdReg (x y : Reg) (s : State) : Result := writeReg x (s.getV y) s

/-- `8XY1`, bitwise OR (R123; `VF` untouched: D27). -/
def execOrReg (x y : Reg) (s : State) : Result := writeReg x (s.getV x ||| s.getV y) s

/-- `8XY2`, bitwise AND (R124; D27). -/
def execAndReg (x y : Reg) (s : State) : Result := writeReg x (s.getV x &&& s.getV y) s

/-- `8XY3`, bitwise XOR (R125; D27). -/
def execXorReg (x y : Reg) (s : State) : Result := writeReg x (s.getV x ^^^ s.getV y) s

/-- `8XY4`, add with carry out (R126). -/
def execAddReg (x y : Reg) (s : State) : Result :=
  writeResultThenFlag x (addBytes (s.getV x) (s.getV y)) (carryFlag (s.getV x) (s.getV y)) s

/-- `8XY5`, subtract (R127). -/
def execSubReg (x y : Reg) (s : State) : Result :=
  writeResultThenFlag x (subBytes (s.getV x) (s.getV y)) (noBorrowFlag (s.getV x) (s.getV y)) s

/-- `8XY6`, shift `V[x]` right by one; `y` is ignored (R128; D11). -/
def execShrReg (x _y : Reg) (s : State) : Result :=
  writeFlagThenResult x (lowBitFlag (s.getV x)) (s.getV x >>> 1) s

/-- `8XY7`, reverse subtract (R129). -/
def execSubnReg (x y : Reg) (s : State) : Result :=
  writeResultThenFlag x (subBytes (s.getV y) (s.getV x)) (noBorrowFlag (s.getV y) (s.getV x)) s

/-- `8XYE`, shift `V[x]` left by one; `y` is ignored (R130; D11). -/
def execShlReg (x _y : Reg) (s : State) : Result :=
  writeFlagThenResult x (highBitFlag (s.getV x)) (s.getV x <<< 1) s

/-- `CXKK`, random value: the next free value in `[0, kk]` (R131; D22). -/
def execRnd (x : Reg) (kk : Byte) (s : State) : Result :=
  .next (advance { s.setV x (BitVec.ofNat 8 (Config.draw s.draws kk).val) with draws := s.draws + 1 })

end Sys2Proof.Machine
end

