-- ==== Sys2Proof/Machine/ControlFlow.lean ====
section
/-! DEFINITION. Control flow (41_control_flow.md): no-op, return, jumps, call, and the skips on registers. -/

namespace Sys2Proof.Machine

/-- `00EE`, return (R101). -/
def execRet (s : State) : Result :=
  match pop s with
  | .error f => raiseError f
  | .ok (w, t) => .next (jumpTo t w)

/-- `0NNN`, no-op: `nnn` is ignored (R100). -/
def execSys (_nnn : Addr12) (s : State) : Result := .next (advance s)

/-- `1NNN`, jump (R102). -/
def execJp (nnn : Addr12) (s : State) : Result := .next (jumpTo s (zext12 nnn))

/-- `2NNN`, call: the address after the call is pushed (R103; D14). -/
def execCall (nnn : Addr12) (s : State) : Result :=
  match push s (s.pc + 2) with
  | .error f => raiseError f
  | .ok t => .next (jumpTo t (zext12 nnn))

/-- `BNNN`, jump with offset `V0`, not reduced modulo 4096 (R104; D15). -/
def execJpV0 (nnn : Addr12) (s : State) : Result := .next (jumpTo s (zext12 nnn + zext8 (s.getV 0)))

/-- `3XKK`, skip if equal to an immediate (R105). -/
def execSeImm (x : Reg) (kk : Byte) (s : State) : Result := .next (skipIf (s.getV x == kk) s)

/-- `4XKK`, skip if not equal to an immediate (R106). -/
def execSneImm (x : Reg) (kk : Byte) (s : State) : Result := .next (skipIf (s.getV x != kk) s)

/-- `5XY0`, skip if registers are equal (R107). -/
def execSeReg (x y : Reg) (s : State) : Result := .next (skipIf (s.getV x == s.getV y) s)

/-- `9XY0`, skip if registers differ (R108). -/
def execSneReg (x y : Reg) (s : State) : Result := .next (skipIf (s.getV x != s.getV y) s)

end Sys2Proof.Machine
end

