-- ==== Sys2Proof/Machine/Display.lean ====
section
/-! DEFINITION. The display (44_display.md): clear and draw. -/

namespace Sys2Proof.Machine

/-- A framebuffer being drawn on, and whether a set pixel has been unset so far (R161). -/
abbrev Canvas := Screen × Bool

/-- XOR a 1 into pixel `p`, noting a collision if it was set (R161). -/
def flipPixel (cv : Canvas) (p : Nat) : Canvas :=
  (if h : p / 64 < 32 then cv.1.set (p / 64) (cv.1[p / 64] ^^^ BitVec.twoPow 64 (p % 64)) else cv.1,
    cv.2 || screenPixel cv.1 p)

/-- Draw the listed columns of one sprite row at column `ox`, row `py` (R161, R162, R163). -/
def drawColumns (msbLeft : Bool) (row : Byte) (ox py : Nat) : List Nat → Canvas → Canvas
  | [], cv => cv
  | c :: cs, cv =>
    drawColumns msbLeft row ox py cs
      (if spriteBit msbLeft row c then flipPixel cv (pixelIndex (ox + c) py) else cv)

/-- Draw sprite rows from row `py` downwards (R161). -/
def drawRows (msbLeft : Bool) (ox : Nat) : (py : Nat) → List Byte → Canvas → Canvas
  | _, [], cv => cv
  | py, row :: rows, cv =>
    drawRows msbLeft ox (py + 1) rows (drawColumns msbLeft row ox py [0, 1, 2, 3, 4, 5, 6, 7] cv)

/-- The sprite's rows: none for `n = 0`, which reads no memory (R161; D20). -/
def readSprite (s : State) (n : Nibble) : Except Fault (List Byte) :=
  if n = 0 then .ok [] else memRead s s.i.toNat n.toNat

/-- `00E0`, clear the screen; `VF` is not written (R160). -/
def execCls (s : State) : Result := .next (advance { s with fb := Vector.replicate 32 0 })

/-- `DXYN`, draw a sprite: pixels first, `VF` last (R161). -/
def execDrw (x y : Reg) (n : Nibble) (s : State) : Result :=
  match readSprite s n with
  | .error f => raiseError f
  | .ok rows =>
    let drawn := drawRows spriteMsbLeft (s.getV x).toNat (s.getV y).toNat rows (s.fb, false)
    .next (advance ({ s with fb := drawn.1 }.setV vf (collisionFlag drawn.2)))

end Sys2Proof.Machine
end

