-- ==== Sys2Proof/Machine/IndexMemory.lean ====
section
/-! DEFINITION. The index register and the memory transfers (43_index_memory.md). `I` is never changed by a transfer
(R144, R145; D13); an access is checked whole before any byte moves (20_memory.md R41). -/

namespace Sys2Proof.Machine

/-- `ANNN`, set the index register (R140). -/
def execLdI (nnn : Addr12) (s : State) : Result := .next (advance { s with i := zext12 nnn })

/-- `FX1E`, add to the index register; `I` first, then the flag (R141; D12). -/
def execAddI (x : Reg) (s : State) : Result :=
  .next (advance ({ s with i := addIndex s.i (s.getV x) }.setV vf (indexOverflowFlag s.i (s.getV x))))

/-- `FX29`, point at a font glyph (R142; D21). -/
def execLdF (x : Reg) (s : State) : Result := .next (advance { s with i := glyphAddress (s.getV x) })

/-- Store bytes at `I` and move on, or raise the access's error. -/
def storeAtI (bytes : List Byte) (s : State) : Result :=
  match memWrite s s.i.toNat bytes with
  | .error f => raiseError f
  | .ok t => .next (advance t)

/-- `FX33`, store decimal digits (R143). -/
def execLdB (x : Reg) (s : State) : Result := storeAtI (decimalDigits (s.getV x)) s

/-- `FX55`, store registers (R144). -/
def execLdMemVx (x : Reg) (s : State) : Result := storeAtI (registerRun s x) s

/-- `FX65`, load registers (R145). -/
def execLdVxMem (x : Reg) (s : State) : Result :=
  match memRead s s.i.toNat (x.val + 1) with
  | .error f => raiseError f
  | .ok bytes => .next (advance { s with v := loadRun s.v 0 bytes })

end Sys2Proof.Machine
end

