-- ==== Sys2Proof/Machine/KeysTimers.lean ====
section
/-! DEFINITION. Keys and timers (45_keys_timers.md). The tick of the same step comes after these (40_step_cycle.md
R88; D9). -/

namespace Sys2Proof.Machine

/-- `EX9E`, skip if the key is pressed (R170; a number above 15: D18). -/
def execSkp (x : Reg) (s : State) : Result :=
  match readKey s (s.getV x) with
  | .error f => raiseError f
  | .ok pressed => .next (skipIf pressed s)

/-- `EXA1`, skip if the key is released (R171; D18). -/
def execSknp (x : Reg) (s : State) : Result :=
  match readKey s (s.getV x) with
  | .error f => raiseError f
  | .ok pressed => .next (skipIf (!pressed) s)

/-- `FX07`, read the delay timer (R172). -/
def execLdVxDt (x : Reg) (s : State) : Result := .next (advance (s.setV x s.dt))

/-- `FX0A`, wait for a key: the latch is set, `PC` moves past the instruction, and the key is taken by a later
step's wait stage (R173, 40_step_cycle.md R81; D10). -/
def execLdVxK (x : Reg) (s : State) : Result :=
  .next (advance { s with wait := { active := true, target := x } })

/-- `FX15`, set the delay timer (R174; D9). -/
def execLdDtVx (x : Reg) (s : State) : Result := .next (advance { s with dt := s.getV x })

/-- `FX18`, set the sound timer (R175; D9). -/
def execLdStVx (x : Reg) (s : State) : Result := .next (advance { s with st := s.getV x })

end Sys2Proof.Machine
end

