-- ==== Sys2Proof/Machine/Cycle.lean ====
section
/-! DEFINITION. The step cycle (40_step_cycle.md R80): wait, fetch, decode, execute with the PC update, tick. -/

namespace Sys2Proof.Machine

/-- One `step()` transaction (R80). The checks come in the order of 60_exceptions.md R208. -/
def cycle (s : State) : Result :=
  if s.wait.active then .next (waitStage s)
  else
    match fetchWord s with
    | .error f => raiseError f
    | .ok w =>
      match decodeWord w with
      | none => raiseError (.decodeError s.pc w)
      | some i => finishStep (exec i s)

end Sys2Proof.Machine
end

