-- ==== Sys2Proof/Machine/Step.lean ====
section
/-! DEFINITION. The machine's step, and the host's way to place one instruction where it is fetched next. -/

namespace Sys2Proof.Machine

/-- One step of the machine: the `step()` transaction (40_step_cycle.md R80). -/
def step (s : State) : Host.Outcome State Fault Refusal := cycle s

/-- Where the next fetch reads: `PC`, or the program base when no word at `PC` lies in memory. -/
def State.fetchAddress (s : State) : Nat :=
  if s.pc.toNat + 1 < Config.memSize then s.pc.toNat else Config.progBase

/-- `s` with the instruction of bits `w` (bits at and above `nbits` zero) stored where `step` fetches next, high byte
first (20_memory.md R43). A waiting machine does not fetch, so the wait is ended; a `PC` outside memory cannot fetch,
so it is moved to the program base. Log entry 20. -/
def State.withFetchWord (s : State) (nbits w : Nat) : State :=
  { s with
    mem := writeCells s.mem s.fetchAddress
      [highByte (BitVec.ofNat 16 (w % 2 ^ nbits)), lowByte (BitVec.ofNat 16 (w % 2 ^ nbits))]
    pc := BitVec.ofNat 16 s.fetchAddress
    wait := { s.wait with active := false } }

end Sys2Proof.Machine
end

