-- ==== Sys2Proof/Machine/HostInterface.lean ====
section
/-! DEFINITION. The host's six transactions (60_exceptions.md R216): construct, `loadProgram`, `step`, `setKey`,
`readPixel`, `soundActive`. Each is one function of the state; they never overlap (40_step_cycle.md R90, 20_memory.md
R51). -/

namespace Sys2Proof.Machine

/-- The status a step returns to the host (60_exceptions.md R200). -/
inductive Status where
  /-- Any step that completes, waiting steps included. -/
  | ok
  /-- The step failed and changed nothing. -/
  | error (f : Fault)
  deriving DecidableEq, Repr

/-- The numeric code of a status (R200; D23). -/
def statusCode : Status → Nat
  | .ok => 0
  | .error (.decodeError _ _) => 1
  | .error .stackOverflow => 2
  | .error .stackUnderflow => 3
  | .error (.outOfBounds _ _ _) => 4

/-- The errors of the other transactions; none changes any state (R205). -/
inductive HostError where
  /-- `loadProgram` with more than 3584 bytes (R232). -/
  | loadOverflow
  /-- `setKey` with an index outside 0..15 (R214). -/
  | keyIndexError
  /-- `readPixel` with an index outside 0..2047 (R213; D28). -/
  | pixelIndexError
  deriving DecidableEq, Repr

/-- Construction with the parameter FONT (10_state.md R28): everything as after reset, with these 80 glyph bytes at
0x000. Its draws start at index 0 like every engine's: the model's choice (log entry 1). -/
def construct (glyphs : Vector Byte 80) : State := { State.reset with mem := writeCells [] 0 glyphs.toList }

/-- `step()`: the status, and the state after it, which after an error is the state before it (R200,
40_step_cycle.md R89, R90). -/
def engineStep (s : State) : Except Refusal (State × Status) :=
  match step s with
  | .next t => .ok (t, .ok)
  | .fault f => .ok (s, .error f)
  | .refused r => .error r

/-- `loadProgram(bytes)`: copies the bytes to 0x200 and answers their count, or reports `LoadOverflow` and loads
nothing; only memory changes (70_reset_and_hazards.md R232; D28). -/
def loadProgram (s : State) (bytes : List Byte) : Except HostError (State × Nat) :=
  if bytes.length > Config.memSize - Config.progBase then .error .loadOverflow
  else .ok ({ s with mem := writeCells s.mem Config.progBase bytes }, bytes.length)

/-- `setKey(k, pressed)` (60_exceptions.md R214, R205). -/
def setKey (s : State) (k : Nat) (pressed : Bool) : Except HostError State :=
  if h : k < 16 then .ok { s with key := s.key.set k pressed } else .error .keyIndexError

/-- `readPixel(p)`: true is a set pixel (R213, R205). -/
def readPixel (s : State) (p : Nat) : Except HostError Bool :=
  if p < Config.nPixels then .ok (s.pixel p) else .error .pixelIndexError

/-- `soundActive()`: `ST ≠ 0` (R212). -/
def soundActive (s : State) : Bool := s.st != 0

/-- A call of the host on a constructed engine (R216). -/
inductive HostCall where
  | loadProgram (bytes : List Byte)
  | step
  | setKey (k : Nat) (pressed : Bool)
  | readPixel (p : Nat)
  | soundActive
  deriving DecidableEq, Repr

/-- What a call answers (R216). -/
inductive HostReply where
  | status (st : Status)
  | loaded (count : Nat)
  | done
  | bit (b : Bool)
  | error (e : HostError)
  deriving DecidableEq, Repr

/-- One transaction: the state after it and its answer (R216). -/
def transact (s : State) : HostCall → Except Refusal (State × HostReply)
  | .loadProgram bytes =>
    match loadProgram s bytes with
    | .ok (t, count) => .ok (t, .loaded count)
    | .error e => .ok (s, .error e)
  | .step =>
    match engineStep s with
    | .ok (t, st) => .ok (t, .status st)
    | .error r => .error r
  | .setKey k pressed =>
    match setKey s k pressed with
    | .ok t => .ok (t, .done)
    | .error e => .ok (s, .error e)
  | .readPixel p =>
    match readPixel s p with
    | .ok b => .ok (s, .bit b)
    | .error e => .ok (s, .error e)
  | .soundActive => .ok (s, .bit (soundActive s))

/-- The host's calls one after another, in the order the host makes them (R216, R233). -/
def drive (s : State) : List HostCall → Except Refusal (State × List HostReply)
  | [] => .ok (s, [])
  | c :: cs =>
    match transact s c with
    | .error r => .error r
    | .ok (t, a) =>
      match drive t cs with
      | .error r => .error r
      | .ok (u, as) => .ok (u, a :: as)

end Sys2Proof.Machine
end

