-- ==== Sys2Proof/Safety.lean ====
section
/-! DEFINITION. The terms claims use: the invariant of reachable states, what an instruction leaves unchanged, what a
safe step is, the end points of a run (70_reset_and_hazards.md R238), and when two states cannot be told apart. -/

namespace Sys2Proof.Machine

/-! ## The invariant -/

/-- What every step boundary has: memory in canonical form, `I ≤ 0xFFF` (10_state.md R16), `PC ≤ 0x10FE` (R18), and
every live return address at most 0x1000 (R18). -/
structure BoundaryInv (s : State) : Prop where
  mem : Memory.wf s.mem
  i : s.i.toNat ≤ 0xFFF
  pc : s.pc.toNat ≤ 0x10FE
  live : ∀ k : Fin 16, k.val < s.sp.val → s.stack[k].toNat ≤ 0x1000

/-! ## Frames -/

/-- The parts of the state, for saying what an instruction leaves unchanged. -/
inductive Part where
  | mem | v | i | pc | stack | dt | st | fb | key | wait | draws
  deriving DecidableEq, Repr

/-- One part reads the same in both states: memory byte by byte, the framebuffer pixel by pixel, registers one by
one, and `SP` together with the stack's entries. -/
def SamePart (s t : State) : Part → Prop
  | .mem => ∀ a, t.byteAt a = s.byteAt a
  | .v => ∀ r, t.getV r = s.getV r
  | .i => t.i = s.i
  | .pc => t.pc = s.pc
  | .stack => t.sp = s.sp ∧ ∀ k : Fin 16, t.stack[k] = s.stack[k]
  | .dt => t.dt = s.dt
  | .st => t.st = s.st
  | .fb => ∀ p, t.pixel p = s.pixel p
  | .key => ∀ k : Fin 16, t.key[k] = s.key[k]
  | .wait => t.wait = s.wait
  | .draws => t.draws = s.draws

/-- Every part but the listed ones reads the same in both states. -/
def SameBut (parts : List Part) (s t : State) : Prop := ∀ p, p ∉ parts → SamePart s t p

/-- Every byte outside `a .. a+n-1` reads the same in both states. -/
def SameBytesOutside (a n : Nat) (s t : State) : Prop := ∀ b, b < a ∨ a + n ≤ b → t.byteAt b = s.byteAt b

/-! ## Safe steps and end points -/

/-- The step reports no error (60_exceptions.md R200; 70_reset_and_hazards.md R236 says what a program must do). -/
def SafeStep (s : State) : Prop := ∃ t, step s = .next t

/-- The error stop of R238: the next step returns a status other than `Ok`. -/
def AtErrorStop (s : State) : Prop := ∃ f, step s = .fault f

/-- The self-loop of R238: `PC` addresses a word `1NNN` with `nnn = PC`, and no wait is active (D29, log entry 27). -/
def AtSelfLoop (s : State) : Prop :=
  s.wait.active = false ∧ ∃ nnn : Addr12, fetchWord s = .ok (encode (.jp nnn)) ∧ zext12 nnn = s.pc

/-- The wait of R238: a wait is active and no key is pressed. -/
def AtKeyWait (s : State) : Prop := s.wait.active = true ∧ ∀ k : Fin 16, s.key[k] = false

/-! ## Sprites -/

/-- A set bit of the `n`-row sprite at `I`, drawn at `(V[x], V[y])`, lands on pixel `p`: row `r`, column `c` from the
left, bit 7 leftmost, each pixel wrapping (44_display.md R161 to R163; D19, D20). -/
def SpriteCovers (s : State) (x y : Reg) (n : Nibble) (p : Nat) : Prop :=
  ∃ r c, r < n.toNat ∧ c < 8 ∧ (s.byteAt (s.i.toNat + r)).getLsbD (7 - c) = true ∧
    p = ((s.getV y).toNat + r) % 32 * 64 + ((s.getV x).toNat + c) % 64

/-! ## Encodings, errors and destinations, as the spec's tables list them -/

/-- The instruction's word has these fixed bits and decodes to the instruction (30_encoding.md R64). -/
def EncodedAs (i : Instr) (mask pattern : Word) : Prop :=
  encode i &&& mask = pattern ∧ decodeWord (encode i) = some i

/-- The one check an instruction makes, and the status when it fails (60_exceptions.md R202 to R204, R208). -/
def listedError (s : State) : Instr → Option Fault
  | .ret => if s.sp.val = 0 then some .stackUnderflow else none
  | .call _ => if s.sp.val = 16 then some .stackOverflow else none
  | .drw _ _ n =>
    if 1 ≤ n.toNat ∧ s.i.toNat + n.toNat - 1 ≥ 4096 then some (.outOfBounds s.pc .mem (max s.i.toNat 4096)) else none
  | .ldB _ => if s.i.toNat + 2 ≥ 4096 then some (.outOfBounds s.pc .mem (max s.i.toNat 4096)) else none
  | .ldMemVx x | .ldVxMem x =>
    if s.i.toNat + x.val ≥ 4096 then some (.outOfBounds s.pc .mem (max s.i.toNat 4096)) else none
  | .skp x | .sknp x =>
    if (s.getV x).toNat > 15 then some (.outOfBounds s.pc .key (s.getV x).toNat) else none
  | .cls | .sys _ | .jp _ | .seImm _ _ | .sneImm _ _ | .seReg _ _ | .ldImm _ _ | .addImm _ _ | .ldReg _ _
  | .orReg _ _ | .andReg _ _ | .xorReg _ _ | .addReg _ _ | .subReg _ _ | .shrReg _ _ | .subnReg _ _ | .shlReg _ _
  | .sneReg _ _ | .ldI _ | .jpV0 _ | .rnd _ _ | .ldVxDt _ | .ldVxK _ | .ldDtVx _ | .ldStVx _ | .addI _ | .ldF _ => none

/-- The instruction may write register `r` in its own step: as its destination, or as `VF` where it defines a flag
(10_state.md R13, R14). -/
def mayWriteReg (r : Reg) : Instr → Bool
  | .ldImm x _ | .addImm x _ | .ldReg x _ | .orReg x _ | .andReg x _ | .xorReg x _ | .rnd x _ | .ldVxDt x => r == x
  | .addReg x _ | .subReg x _ | .shrReg x _ | .subnReg x _ | .shlReg x _ => r == x || r == 15
  | .drw _ _ _ | .addI _ => r == 15
  | .ldVxMem x => r ≤ x
  | .cls | .ret | .sys _ | .jp _ | .call _ | .seImm _ _ | .sneImm _ _ | .seReg _ _ | .sneReg _ _ | .ldI _ | .jpV0 _
  | .skp _ | .sknp _ | .ldVxK _ | .ldDtVx _ | .ldStVx _ | .ldF _ | .ldB _ | .ldMemVx _ => false

/-- The parts of the state an instruction may write in its execute stage, other than the general registers
(10_state.md R15, R19 to R25; 20_memory.md R45, R50). -/
def mayWritePart : Instr → List Part
  | .cls => [.pc, .fb]
  | .drw _ _ _ => [.pc, .fb]
  | .ret | .call _ => [.pc, .stack]
  | .ldI _ | .addI _ | .ldF _ => [.pc, .i]
  | .ldDtVx _ => [.pc, .dt]
  | .ldStVx _ => [.pc, .st]
  | .ldVxK _ => [.pc, .wait]
  | .ldB _ | .ldMemVx _ => [.pc, .mem]
  | .rnd _ _ => [.pc, .draws]
  | .sys _ | .jp _ | .seImm _ _ | .sneImm _ _ | .seReg _ _ | .ldImm _ _ | .addImm _ _ | .ldReg _ _
  | .orReg _ _ | .andReg _ _ | .xorReg _ _ | .addReg _ _ | .subReg _ _ | .shrReg _ _ | .subnReg _ _ | .shlReg _ _
  | .sneReg _ _ | .jpV0 _ | .skp _ | .sknp _ | .ldVxDt _ | .ldVxMem _ => [.pc]

/-- Does a skip instruction skip in this state (41_control_flow.md R105 to R108, 45_keys_timers.md R170, R171); `none`
for every other instruction and for a key number above 15. -/
def skipTaken (s : State) : Instr → Option Bool
  | .seImm x kk => some (decide (s.getV x = kk))
  | .sneImm x kk => some (decide (s.getV x ≠ kk))
  | .seReg x y => some (decide (s.getV x = s.getV y))
  | .sneReg x y => some (decide (s.getV x ≠ s.getV y))
  | .skp x => if h : (s.getV x).toNat < 16 then some s.key[(s.getV x).toNat] else none
  | .sknp x => if h : (s.getV x).toNat < 16 then some (!s.key[(s.getV x).toNat]) else none
  | .cls | .ret | .sys _ | .jp _ | .call _ | .ldImm _ _ | .addImm _ _ | .ldReg _ _ | .orReg _ _ | .andReg _ _
  | .xorReg _ _ | .addReg _ _ | .subReg _ _ | .shrReg _ _ | .subnReg _ _ | .shlReg _ _ | .ldI _ | .jpV0 _ | .rnd _ _
  | .drw _ _ _ | .ldVxDt _ | .ldVxK _ | .ldDtVx _ | .ldStVx _ | .addI _ | .ldF _ | .ldB _ | .ldMemVx _
  | .ldVxMem _ => none

/-! ## States no program and no host transaction can tell apart -/

/-- Two states that differ at most in what cannot be observed: stack entries at indices `≥ SP` (10_state.md R19) and
the wait latch's target while no wait is active (R25). They agree in `draws`, so that both take the same draw
(40_step_cycle.md R92; log entry 1). -/
structure Alike (s t : State) : Prop where
  mem : t.mem = s.mem
  v : t.v = s.v
  i : t.i = s.i
  pc : t.pc = s.pc
  sp : t.sp = s.sp
  live : ∀ k : Fin 16, k.val < s.sp.val → t.stack[k] = s.stack[k]
  dt : t.dt = s.dt
  st : t.st = s.st
  fb : t.fb = s.fb
  key : t.key = s.key
  active : t.wait.active = s.wait.active
  target : s.wait.active = true → t.wait.target = s.wait.target
  draws : t.draws = s.draws

/-- Two outcomes that agree: the same error, or next states that `R` relates. -/
def SameOutcome (R : State → State → Prop) : Result → Result → Prop
  | .next s, .next t => R s t
  | .fault f, .fault g => f = g
  | .refused a, .refused b => a = b
  | _, _ => False

end Sys2Proof.Machine
end

