-- ==== Sys2Proof/Certificates/Slice0/Obligations.lean ====
section
/-! DEFINITION. The statements for the provers, from the spec's numbered rules, file by file. -/

open Sys2Proof Sys2Proof.Machine

/-! ## Encoding (30_encoding.md) -/

/-- R60 to R65: the decoder of bytes reads back the bytes of every instruction some word stands for, whatever follows
them. The masks behind it are the spec's decision D5 (log entry 22). -/
def Obligations.DecodeOfEncodeIsTheInstruction : Prop :=
  ∀ (i : Instr) (rest : List Byte), i.WellFormed → decode (encodeBytes i ++ rest) = .ok (i, rest)

/-- R63 to R66: no bit of a word is lost: a word that decodes is the word its instruction encodes to, and what is
decoded is well-formed. The masks behind it are the spec's decision D5 (log entry 22). -/
def Obligations.EncodeOfDecodeIsTheWord : Prop :=
  ∀ (w : Word) (i : Instr), decodeWord w = some i → encode i = w ∧ i.WellFormed

/-- R65 (which the spec derives from R64): two different rows match one word only where `0NNN` meets `00E0` or `00EE`,
and those two words decode as the special forms. The masks and the order of the rows are the spec's decisions D5 (log
entry 22) and D6 (log entry 22). -/
def Obligations.OnlyTheSpecialFormsOverlap : Prop :=
  (∀ (w : Word) (j k : Nat) (r q : Row), j < k → decodeTable[j]? = some r → decodeTable[k]? = some q →
    r.hits w = true → q.hits w = true → k = 2 ∧ ((j = 0 ∧ w = 0x00E0#16) ∨ (j = 1 ∧ w = 0x00EE#16))) ∧
  decodeWord 0x00E0#16 = some .cls ∧ decodeWord 0x00EE#16 = some .ret ∧
  ∀ w : Word, w.toNat < 0x1000 → w ≠ 0x00E0#16 → w ≠ 0x00EE#16 → decodeWord w = some (.sys (nnnField w))

/-- R67 (which the spec derives from R64): the words with no match are exactly those of its table. The masks behind it
are the spec's decision D5 (log entry 22). -/
def Obligations.InvalidWordsAreExactlyTheListedOnes : Prop :=
  ∀ w : Word, decodeWord w = none ↔
    (w.toNat / 4096 = 0x5 ∧ w.toNat % 16 ≠ 0) ∨
    (w.toNat / 4096 = 0x8 ∧ w.toNat % 16 ∈ [0x8, 0x9, 0xA, 0xB, 0xC, 0xD, 0xF]) ∨
    (w.toNat / 4096 = 0x9 ∧ w.toNat % 16 ≠ 0) ∨
    (w.toNat / 4096 = 0xE ∧ w.toNat % 256 ∉ [0x9E, 0xA1]) ∨
    (w.toNat / 4096 = 0xF ∧ w.toNat % 256 ∉ [0x07, 0x0A, 0x15, 0x18, 0x1E, 0x29, 0x33, 0x55, 0x65])

/-- Words written out in 95_test_vectors.md, one or more of each family, decode to what that file says. That 5121
decodes to nothing rests on the masks, the spec's decision D5 (log entry 22). -/
def Obligations.WordsOfTheSpecDecode : Prop :=
  decodeWord 0x00E1#16 = some (.sys 0x0E1) ∧ decodeWord 0x1200#16 = some (.jp 0x200) ∧
  decodeWord 0x2206#16 = some (.call 0x206) ∧ decodeWord 0x332A#16 = some (.seImm 3 0x2A) ∧
  decodeWord 0x7201#16 = some (.addImm 2 0x01) ∧ decodeWord 0x80F4#16 = some (.addReg 0 15) ∧
  decodeWord 0x8F0E#16 = some (.shlReg 15 0) ∧ decodeWord 0xC00F#16 = some (.rnd 0 0x0F) ∧
  decodeWord 0xD012#16 = some (.drw 0 1 2) ∧ decodeWord 0xE2A1#16 = some (.sknp 2) ∧
  decodeWord 0xF533#16 = some (.ldB 5) ∧ decodeWord 0xF265#16 = some (.ldVxMem 2) ∧
  decodeWord 0x5121#16 = none ∧ decodeWord 0xF130#16 = none

/-! ## The step cycle (40_step_cycle.md) -/

/-- R80: a step that is not waiting runs the instruction its two bytes decode to, and then ticks. That the tick
follows the execute stage is the spec's decision D9 (log entry 7), that an error step does not tick its decision D7
(log entries 2 and 6), and that `FX0A`'s own step does not tick, which the tick itself sees to, its decision D10 (log
entry 8); an odd `PC` is fetched by D16 (log entry 23). -/
def Obligations.StepRunsTheDecodedInstruction : Prop :=
  ∀ (s : State) (i : Instr), s.wait.active = false → s.pc.toNat + 1 < 4096 →
    decode [s.byteAt s.pc.toNat, s.byteAt (s.pc.toNat + 1)] = .ok (i, []) →
    step s = match exec i s with
      | .next t => .next (tick t)
      | .fault f => .fault f
      | .refused r => .refused r

/-- R81: a waiting step hands the lowest pressed key to the target register and ends the wait, or, with no key
pressed, changes nothing; in both cases `PC` and the timers stay. The spec's decision D10 fixes that neither waiting
step ticks. -/
def Obligations.WaitingStepTakesTheLowestKey : Prop :=
  ∀ s : State, s.wait.active = true →
    (∀ k : Fin 16, s.key[k] = true → (∀ j : Fin 16, j < k → s.key[j] = false) →
      ∃ t, step s = .next t ∧ t.getV s.wait.target = BitVec.ofNat 8 k.val ∧
        (∀ r, r ≠ s.wait.target → t.getV r = s.getV r) ∧ t.wait.active = false ∧ SameBut [.v, .wait] s t) ∧
    ((∀ k : Fin 16, s.key[k] = false) → step s = .next s)

/-- R82: the fetch reads the big-endian word at `PC`, odd or even, when both bytes lie in memory, and is an error
otherwise. That an odd `PC` is fetched is the spec's decision D16 (log entry 23), and the error's payload, space and
address, its decision D23 (log entry 18). That memory ends at 4096 is the spec's decision D2 (log entry 21). -/
def Obligations.FetchReadsABigEndianWordInMemory : Prop :=
  ∀ s : State,
    (s.pc.toNat + 1 < 4096 → ∃ w : Word, fetchWord s = .ok w ∧
      w.toNat = (s.byteAt s.pc.toNat).toNat * 256 + (s.byteAt (s.pc.toNat + 1)).toNat) ∧
    (s.wait.active = false → 4096 ≤ s.pc.toNat + 1 →
      step s = .fault (.outOfBounds s.pc .mem (if 4096 ≤ s.pc.toNat then s.pc.toNat else s.pc.toNat + 1)))

/-- R83, R201: a word no row matches is reported with its address, and the host gets the state back as it was. That
the whole state is unchanged, the timers included, is the spec's decision D7 (R89; log entries 2 and 6). That an odd
`PC` is fetched is the spec's decision D16 (log entry 23). -/
def Obligations.UndecodableWordIsReported : Prop :=
  ∀ (s : State) (w : Word), s.wait.active = false → fetchWord s = .ok w → decodeWord w = none →
    step s = .fault (.decodeError s.pc w) ∧ engineStep s = .ok (s, .error (.decodeError s.pc w))

/-- R86: where `PC` goes, for every instruction that completes in a step. That `BNNN`'s sum is not reduced is the
spec's decision D15 (log entry 17), and that `FX0A` moves past itself is its decision D10 (log entry 8). That `00EE`
goes to the entry itself is the spec's decision D14 (log entry 11). The skip conditions are those of R105 to R108,
R170 and R171; that no `EX9E` or `EXA1` completes with `V[x]` above 15 is the spec's decision D18 (log entry 18). -/
def Obligations.PcGoesWhereTheTableSays : Prop :=
  ∀ (s t : State) (w : Word) (i : Instr), s.wait.active = false → fetchWord s = .ok w → decodeWord w = some i →
    step s = .next t →
    match i with
    | .ret => ∀ k : Fin 16, k.val + 1 = s.sp.val → t.pc = s.stack[k]
    | .jp nnn | .call nnn => t.pc.toNat = nnn.toNat
    | .jpV0 nnn => t.pc.toNat = nnn.toNat + (s.getV 0).toNat
    | .seImm _ _ | .sneImm _ _ | .seReg _ _ | .sneReg _ _ | .skp _ | .sknp _ =>
      (skipTaken s i = some true ∧ t.pc.toNat = s.pc.toNat + 4) ∨
      (skipTaken s i = some false ∧ t.pc.toNat = s.pc.toNat + 2)
    | _ => t.pc.toNat = s.pc.toNat + 2

/-- R88 (with the decisions D7, D9, D10): the timers count down by one, stopping at 0, after the execute stage of a
step that fetched, unless the instruction was `FX0A`; a waiting step leaves them. -/
def Obligations.TimersTickAfterTheInstruction : Prop :=
  ∀ s t : State, step s = .next t →
    (s.wait.active = true → t.dt = s.dt ∧ t.st = s.st) ∧
    (s.wait.active = false → ∃ w i u, fetchWord s = .ok w ∧ decodeWord w = some i ∧ exec i s = .next u ∧
      SameBut [.dt, .st] u t ∧
      ((∃ x, i = .ldVxK x) → t.dt = u.dt ∧ t.st = u.st) ∧
      ((∀ x, i ≠ .ldVxK x) → t.dt.toNat = u.dt.toNat - 1 ∧ t.st.toNat = u.st.toNat - 1))

/-! ## Errors (60_exceptions.md) -/

/-- R200 to R204, R208 (with the decisions D7, D8, D18, D23): a step reports an error exactly when the first check
that fails, in the order wait, fetch, decode, instruction, is the listed one; no step is refused. The masks are the
spec's decision D5 (log entry 22), and that `DXY0` reads nothing its decision D20 (log entry 15). That memory, the
bound of every access, ends at 4096 is the spec's decision D2 (log entry 21), and that an odd `PC` is no error its
decision D16 (log entry 23). -/
def Obligations.ErrorsAreExactlyTheListedOnes : Prop :=
  (∀ (s : State) (f : Fault), step s = .fault f ↔
    s.wait.active = false ∧
      ((4096 ≤ s.pc.toNat + 1 ∧ f = .outOfBounds s.pc .mem (max s.pc.toNat 4096)) ∨
       (s.pc.toNat + 1 < 4096 ∧ ∃ w, fetchWord s = .ok w ∧
         ((decodeWord w = none ∧ f = .decodeError s.pc w) ∨
          ∃ i, decodeWord w = some i ∧ listedError s i = some f)))) ∧
  ∀ (s : State) (r : Refusal), step s ≠ .refused r

/-- R89, R206, R207 (with the decision D7): after an error the host has the state it had, and every further step
reports the same error. -/
def Obligations.AnErrorStepChangesNothingAndRepeats : Prop :=
  ∀ (s : State) (f : Fault), step s = .fault f →
    ∀ n, drive s (List.replicate n .step) = .ok (s, List.replicate n (.status (.error f)))

/-- R207 (derived by the spec from R206, R216, R92): only `loadProgram` can change the outcome of a failing step:
whatever other transactions the host makes, the next step fails the same way. That a failing step changes nothing is
the spec's decision D7 (log entries 2 and 6), and that `setKey` writes its one latch only and the read ports nothing
rests on D28 (log entry 24) too; D26 is in log entry 24. That these are all the host's transactions is the spec's
decision D1 (log entry 24). -/
def Obligations.OnlyLoadProgramClearsAnError : Prop :=
  ∀ (s : State) (f : Fault) (calls : List HostCall), step s = .fault f →
    (∀ c ∈ calls, ∀ bytes, c ≠ .loadProgram bytes) →
    ∃ t replies, drive s calls = .ok (t, replies) ∧ step t = .fault f

/-! ## Reset and the invariant (10_state.md, 70_reset_and_hazards.md) -/

/-- R28, R230: the state after construction. The zeros of the registers, timers, stack, screen, keys and latch are the
spec's decision D3 (log entry 3), the font's bytes its default D4 (log entry 4); `PC` and the zeroed memory are the
source's. Memory is the spec's 4096 bytes, its decision D2, and an address the model's list does not name, those above
memory among them, reads as its construction content (log entry 21). -/
def Obligations.ResetLeavesTheConstructionValues : Prop :=
  State.reset.pc = 0x200#16 ∧
  (∀ a, State.reset.byteAt a = if a < 80 then font.getD a 0 else 0) ∧ font.length = 80 ∧
  (∀ r, State.reset.getV r = 0) ∧ State.reset.i = 0 ∧ State.reset.sp.val = 0 ∧
  (∀ k : Fin 16, State.reset.stack[k] = 0) ∧ State.reset.dt = 0 ∧ State.reset.st = 0 ∧
  (∀ p, State.reset.pixel p = false) ∧ (∀ k : Fin 16, State.reset.key[k] = false) ∧
  State.reset.wait = { active := false, target := 0 }

/-- R28, R5: the font is a parameter of construction: any 80 bytes stand at 0x000 to 0x04F, the rest of memory is
zero, and everything else is as after reset. FONT is the spec's parameter D4 (log entry 4), and the zeros outside
memory its decision D3 (log entry 3). "Everything else" takes in the model's own counter `draws`, so it also says that
two constructed engines have equal draw counters: that is the model's choice of log entry 1, not the spec's. Memory is
the spec's 4096 bytes, its decision D2, and an address the model's list does not name, those above memory among them,
reads as its construction content (log entry 21). -/
def Obligations.ConstructionTakesAnyFont : Prop :=
  ∀ glyphs : Vector Byte 80,
    (∀ a : Fin 80, (construct glyphs).byteAt a.val = glyphs[a]) ∧
    (∀ a, 80 ≤ a → (construct glyphs).byteAt a = 0) ∧ SameBut [.mem] State.reset (construct glyphs)

/-- The invariant of R16, R18 and the memory's canonical form holds after reset. That `I` and `SP` are 0 is the spec's
decision D3 (log entry 3), and that memory is 4096 bytes its decision D2 (log entry 21). -/
def Obligations.ResetMeetsTheInvariant : Prop := BoundaryInv State.reset

/-- R16, R18 (derived by the spec), R41: every step from ANY state with the invariant keeps it: memory canonical and
inside its 4096 bytes, `I ≤ 0xFFF`, `PC ≤ 0x10FE`, live return addresses at most 0x1000. That a stack entry is `PC` +
2 and that `BNNN` is not reduced are the spec's decisions D14 (log entry 11) and D15 (log entry 17), that memory is
4096 bytes its decision D2 (log entry 21), that `FX29` is not masked D21 (log entry 14). That `I` stays at most 0xFFF
rests also on `FX55` and `FX65` leaving `I` unchanged, the spec's decision D13 (log entry 10). -/
def Obligations.EveryStepKeepsTheInvariant : Prop :=
  ∀ s t : State, BoundaryInv s → step s = .next t → BoundaryInv t

/-- R216, R16, R18: every construction has the invariant, whatever the font, and every transaction from ANY state with
the invariant keeps it: a step, failing or not, a load, a key, a read. It rests on the spec's decisions D2 (log entry
21), D3 (log entry 3), D14 (log entry 11), D15 (log entry 17), D21 (log entry 14) and, for what the host can do, D1,
D26, D28 (log entry 24). That `I` stays at most 0xFFF rests also on `FX55` and `FX65` leaving `I` unchanged, the
spec's decision D13 (log entry 10), and what a failing step leaves is its decision D7 (log entries 2 and 6). -/
def Obligations.EveryTransactionKeepsTheInvariant : Prop :=
  (∀ glyphs : Vector Byte 80, BoundaryInv (construct glyphs)) ∧
  ∀ (s t : State) (c : HostCall) (a : HostReply), BoundaryInv s → transact s c = .ok (t, a) → BoundaryInv t

/-- R216, R16, R18: whatever the font, whatever program is loaded and whatever the host does, every state the host can
bring the engine to has the invariant. It rests on the spec's decisions D2 (log entry 21), D3 (log entry 3), D14 (log
entry 11), D15 (log entry 17), D21 (log entry 14) and, for what the host can do, D1, D26, D28 (log entry 24). That `I`
stays at most 0xFFF rests also on `FX55` and `FX65` leaving `I` unchanged, the spec's decision D13 (log entry 10), and
what a failing step leaves is its decision D7 (log entries 2 and 6). -/
def Obligations.EveryReachableStateMeetsTheInvariant : Prop :=
  ∀ (glyphs : Vector Byte 80) (calls : List HostCall) (t : State) (replies : List HostReply),
    drive (construct glyphs) calls = .ok (t, replies) → BoundaryInv t

/-! ## What an instruction may write (10_state.md, 20_memory.md) -/

/-- R13, R14: an instruction changes no general register but its destination, the registers `FX65` loads, and `VF`
where it defines a flag. That the logic operations leave `VF` alone is the spec's decision D27 (log entry 19). -/
def Obligations.OnlyDestinationsAndFlagsChangeRegisters : Prop :=
  ∀ (i : Instr) (s t : State) (r : Reg), exec i s = .next t → mayWriteReg r i = false → t.getV r = s.getV r

/-- R15, R19, R21 to R25, R45, R50: each other part of the state is changed by its listed writers only; no instruction
changes the key latch, and no instruction but the two stores changes any byte of memory. That `FX55` and `FX65` leave
`I` unchanged is the spec's decision D13 (log entry 10), and that `CXKK` changes no other state its decision D22 (log
entry 1). -/
def Obligations.EachPartHasOnlyItsListedWriters : Prop :=
  ∀ (i : Instr) (s t : State), exec i s = .next t → SameBut (.v :: mayWritePart i) s t

/-! ## Control flow (41_control_flow.md) -/

/-- R100: `0NNN` advances `PC` and changes nothing else, and the step around it ticks the timers. That an odd `PC` is
fetched is the spec's decision D16 (log entry 23). -/
def Obligations.NoOpOnlyAdvances : Prop :=
  ∀ (nnn : Addr12) (s : State),
    (∃ t, exec (.sys nnn) s = .next t ∧ t.pc = s.pc + 2 ∧ SameBut [.pc] s t) ∧
    (nnn ≠ 0x0E0#12 → nnn ≠ 0x0EE#12 → EncodedAs (.sys nnn) 0xF000#16 0x0000#16 ∧
      (s.wait.active = false → fetchWord s = .ok (encode (.sys nnn)) →
        ∃ t, step s = .next t ∧ t.pc = s.pc + 2 ∧ t.dt.toNat = s.dt.toNat - 1 ∧ t.st.toNat = s.st.toNat - 1 ∧
          SameBut [.pc, .dt, .st] s t))

/-- R101: `00EE` pops the newest entry into `PC`, with no further advance, or reports the empty stack. That `PC`
becomes the entry itself is the spec's decision D14 (log entry 11). -/
def Obligations.ReturnPopsTheNewestEntry : Prop :=
  EncodedAs .ret 0xFFFF#16 0x00EE#16 ∧ ∀ s : State,
    (∀ k : Fin 16, k.val + 1 = s.sp.val → ∃ t, exec .ret s = .next t ∧ t.sp.val = k.val ∧ t.pc = s.stack[k] ∧
      (∀ j : Fin 16, t.stack[j] = s.stack[j]) ∧ SameBut [.pc, .stack] s t) ∧
    (s.sp.val = 0 → exec .ret s = .fault .stackUnderflow)

/-- R102: `1NNN` sets `PC` to the target exactly; only a target of 0xFFF fails, at the next fetch; a jump to its own
address stays there, ticking the timers. That an odd target can be fetched is the spec's decision D16 (log entry 23),
and the payload of the fetch at 0xFFF its decision D23 (log entry 18). That memory ends at 4096, so that 0xFFF holds
no whole word, is the spec's decision D2 (log entry 21). -/
def Obligations.JumpSetsThePcExactly : Prop :=
  ∀ (nnn : Addr12) (s : State), EncodedAs (.jp nnn) 0xF000#16 0x1000#16 ∧
    ∃ t, exec (.jp nnn) s = .next t ∧ t.pc.toNat = nnn.toNat ∧ SameBut [.pc] s t ∧
      (s.wait.active = false →
        (nnn = 0xFFF#12 → step t = .fault (.outOfBounds 0xFFF#16 .mem 0x1000)) ∧
        (nnn ≠ 0xFFF#12 → ∃ w, fetchWord t = .ok w) ∧
        (fetchWord s = .ok (encode (.jp nnn)) → s.pc.toNat = nnn.toNat →
          ∃ u, step s = .next u ∧ SameBut [.dt, .st] s u ∧ u.dt.toNat = s.dt.toNat - 1 ∧
            u.st.toNat = s.st.toNat - 1))

/-- R103: `2NNN` pushes a return address and jumps, or reports the full stack. That the entry is `PC + 2` is the
spec's decision D14 (log entry 11); no program observes it but through `00EE`. -/
def Obligations.CallPushesAndJumps : Prop :=
  ∀ (nnn : Addr12) (s : State), EncodedAs (.call nnn) 0xF000#16 0x2000#16 ∧
    (∀ k : Fin 16, k.val = s.sp.val → ∃ t, exec (.call nnn) s = .next t ∧ t.sp.val = k.val + 1 ∧
      t.pc.toNat = nnn.toNat ∧ t.stack[k] = s.pc + 2 ∧ (∀ j : Fin 16, j ≠ k → t.stack[j] = s.stack[j]) ∧
      SameBut [.pc, .stack] s t) ∧
    (s.sp.val = 16 → exec (.call nnn) s = .fault .stackOverflow)

/-- S2 of 95_test_vectors.md, R101 with R103: whatever a subroutine did, if it left the stack as the call left it, its
return goes to the word after the call and leaves the caller's entries as they were. -/
def Obligations.CallThenReturnComesBack : Prop :=
  ∀ (nnn : Addr12) (s t u : State), exec (.call nnn) s = .next t → u.sp = t.sp →
    (∀ k : Fin 16, k.val < t.sp.val → u.stack[k] = t.stack[k]) →
    ∃ v, exec .ret u = .next v ∧ v.pc = s.pc + 2 ∧ v.sp = s.sp ∧
      (∀ k : Fin 16, k.val < s.sp.val → v.stack[k] = s.stack[k]) ∧ SameBut [.pc, .stack] u v

/-- R104: `BNNN` adds `V0` to the target, in full: the sum is not reduced modulo 4096 (the spec's decision D15). -/
def Obligations.JumpWithOffsetAddsV0 : Prop :=
  ∀ (nnn : Addr12) (s : State), EncodedAs (.jpV0 nnn) 0xF000#16 0xB000#16 ∧
    ∃ t, exec (.jpV0 nnn) s = .next t ∧ t.pc.toNat = nnn.toNat + (s.getV 0).toNat ∧ SameBut [.pc] s t

/-- R105 to R108: the four skips on registers move `PC` by 4 or by 2 and change nothing else; the other words of
families 5 and 9 decode to nothing. That `5XYn` and `9XYn` with n not 0 decode to nothing rests on the masks, the
spec's decision D5 (log entry 22), from which the spec derives its table of invalid words. -/
def Obligations.RegisterSkipsMoveThePc : Prop :=
  ∀ (x y : Reg) (kk : Byte) (s : State),
    (EncodedAs (.seImm x kk) 0xF000#16 0x3000#16 ∧ ∃ t, exec (.seImm x kk) s = .next t ∧
      t.pc = (if s.getV x = kk then s.pc + 4 else s.pc + 2) ∧ SameBut [.pc] s t) ∧
    (EncodedAs (.sneImm x kk) 0xF000#16 0x4000#16 ∧ ∃ t, exec (.sneImm x kk) s = .next t ∧
      t.pc = (if s.getV x = kk then s.pc + 2 else s.pc + 4) ∧ SameBut [.pc] s t) ∧
    (EncodedAs (.seReg x y) 0xF00F#16 0x5000#16 ∧ ∃ t, exec (.seReg x y) s = .next t ∧
      t.pc = (if s.getV x = s.getV y then s.pc + 4 else s.pc + 2) ∧ SameBut [.pc] s t) ∧
    (EncodedAs (.sneReg x y) 0xF00F#16 0x9000#16 ∧ ∃ t, exec (.sneReg x y) s = .next t ∧
      t.pc = (if s.getV x = s.getV y then s.pc + 2 else s.pc + 4) ∧ SameBut [.pc] s t) ∧
    ∀ n : Nibble, n ≠ 0 → decodeWord (wordXYN 0x5 x y n) = none ∧ decodeWord (wordXYN 0x9 x y n) = none

/-! ## Register ALU (42_alu.md) -/

/-- R120, R122: the two loads write their one destination. -/
def Obligations.LoadsWriteTheirDestination : Prop :=
  ∀ (x y : Reg) (kk : Byte) (s : State),
    (EncodedAs (.ldImm x kk) 0xF000#16 0x6000#16 ∧ ∃ t, exec (.ldImm x kk) s = .next t ∧ t.getV x = kk ∧
      (∀ r, r ≠ x → t.getV r = s.getV r) ∧ t.pc = s.pc + 2 ∧ SameBut [.v, .pc] s t) ∧
    (EncodedAs (.ldReg x y) 0xF00F#16 0x8000#16 ∧ ∃ t, exec (.ldReg x y) s = .next t ∧ t.getV x = s.getV y ∧
      (∀ r, r ≠ x → t.getV r = s.getV r) ∧ t.pc = s.pc + 2 ∧ SameBut [.v, .pc] s t)

/-- R121: `7XKK` adds modulo 256 and sets no flag. -/
def Obligations.AddImmediateSetsNoFlag : Prop :=
  ∀ (x : Reg) (kk : Byte) (s : State), EncodedAs (.addImm x kk) 0xF000#16 0x7000#16 ∧
    ∃ t, exec (.addImm x kk) s = .next t ∧ (t.getV x).toNat = ((s.getV x).toNat + kk.toNat) % 256 ∧
      (∀ r, r ≠ x → t.getV r = s.getV r) ∧ t.pc = s.pc + 2 ∧ SameBut [.v, .pc] s t

/-- R123 to R125: the logic operations, bit by bit; `VF` is not written unless it is the destination (the spec's
decision D27). -/
def Obligations.LogicWorksBitByBit : Prop :=
  ∀ (x y : Reg) (s : State),
    (EncodedAs (.orReg x y) 0xF00F#16 0x8001#16 ∧ ∃ t, exec (.orReg x y) s = .next t ∧
      (∀ j, (t.getV x).getLsbD j = ((s.getV x).getLsbD j || (s.getV y).getLsbD j)) ∧
      (∀ r, r ≠ x → t.getV r = s.getV r) ∧ t.pc = s.pc + 2 ∧ SameBut [.v, .pc] s t) ∧
    (EncodedAs (.andReg x y) 0xF00F#16 0x8002#16 ∧ ∃ t, exec (.andReg x y) s = .next t ∧
      (∀ j, (t.getV x).getLsbD j = ((s.getV x).getLsbD j && (s.getV y).getLsbD j)) ∧
      (∀ r, r ≠ x → t.getV r = s.getV r) ∧ t.pc = s.pc + 2 ∧ SameBut [.v, .pc] s t) ∧
    (EncodedAs (.xorReg x y) 0xF00F#16 0x8003#16 ∧ ∃ t, exec (.xorReg x y) s = .next t ∧
      (∀ j, (t.getV x).getLsbD j = ((s.getV x).getLsbD j != (s.getV y).getLsbD j)) ∧
      (∀ r, r ≠ x → t.getV r = s.getV r) ∧ t.pc = s.pc + 2 ∧ SameBut [.v, .pc] s t)

/-- R126: `8XY4` adds modulo 256, and `VF` ends as the carry, when it is the destination too. That the carry stays
when x is 15, and that the operands are latched, is the spec's decision D11 (log entry 9). -/
def Obligations.AddSetsCarry : Prop :=
  ∀ (x y : Reg) (s : State), EncodedAs (.addReg x y) 0xF00F#16 0x8004#16 ∧
    ∃ t, exec (.addReg x y) s = .next t ∧
      (x ≠ 15 → (t.getV x).toNat = ((s.getV x).toNat + (s.getV y).toNat) % 256) ∧
      (t.getV 15).toNat = (if (s.getV x).toNat + (s.getV y).toNat > 255 then 1 else 0) ∧
      (∀ r, r ≠ x → r ≠ 15 → t.getV r = s.getV r) ∧ t.pc = s.pc + 2 ∧ SameBut [.v, .pc] s t

/-- R127, R129: the subtractions wrap modulo 256, and `VF` ends as "no borrow" of the values before the instruction,
when it is the destination too. That the flag stays when x is 15, and that it compares the latched operands, is the
spec's decision D11 (log entry 9). -/
def Obligations.SubtractionsSetNoBorrow : Prop :=
  ∀ (x y : Reg) (s : State),
    (EncodedAs (.subReg x y) 0xF00F#16 0x8005#16 ∧ ∃ t, exec (.subReg x y) s = .next t ∧
      (x ≠ 15 → ((t.getV x).toNat : Int) = ((s.getV x).toNat - (s.getV y).toNat : Int) % 256) ∧
      (t.getV 15).toNat = (if (s.getV x).toNat ≥ (s.getV y).toNat then 1 else 0) ∧
      (∀ r, r ≠ x → r ≠ 15 → t.getV r = s.getV r) ∧ t.pc = s.pc + 2 ∧ SameBut [.v, .pc] s t) ∧
    (EncodedAs (.subnReg x y) 0xF00F#16 0x8007#16 ∧ ∃ t, exec (.subnReg x y) s = .next t ∧
      (x ≠ 15 → ((t.getV x).toNat : Int) = ((s.getV y).toNat - (s.getV x).toNat : Int) % 256) ∧
      (t.getV 15).toNat = (if (s.getV y).toNat ≥ (s.getV x).toNat then 1 else 0) ∧
      (∀ r, r ≠ x → r ≠ 15 → t.getV r = s.getV r) ∧ t.pc = s.pc + 2 ∧ SameBut [.v, .pc] s t)

/-- R128, R130: the shifts move `V[x]` by one bit, whatever `y` is, and `VF` gets the bit shifted out, unless it is
itself the destination: then the result stays (the spec's decision D11, log entry 9). That `V[x]` is what is shifted,
and `y` ignored, is the spec's decision D27 (log entry 19). -/
def Obligations.ShiftsMoveOneBit : Prop :=
  ∀ (x y : Reg) (s : State),
    (EncodedAs (.shrReg x y) 0xF00F#16 0x8006#16 ∧ ∃ t, exec (.shrReg x y) s = .next t ∧
      (t.getV x).toNat = (s.getV x).toNat / 2 ∧ (x ≠ 15 → (t.getV 15).toNat = (s.getV x).toNat % 2) ∧
      (∀ r, r ≠ x → r ≠ 15 → t.getV r = s.getV r) ∧ t.pc = s.pc + 2 ∧ SameBut [.v, .pc] s t) ∧
    (EncodedAs (.shlReg x y) 0xF00F#16 0x800E#16 ∧ ∃ t, exec (.shlReg x y) s = .next t ∧
      (t.getV x).toNat = (s.getV x).toNat * 2 % 256 ∧ (x ≠ 15 → (t.getV 15).toNat = (s.getV x).toNat / 128) ∧
      (∀ r, r ≠ x → r ≠ 15 → t.getV r = s.getV r) ∧ t.pc = s.pc + 2 ∧ SameBut [.v, .pc] s t)

/-- R131: `CXKK` writes some value in `[0, kk]` and one more draw is counted; the value is free (the spec's decision
D22, log entry 1), so the statement holds for every draw. -/
def Obligations.RandomValueStaysInItsRange : Prop :=
  ∀ (x : Reg) (kk : Byte) (s : State), EncodedAs (.rnd x kk) 0xF000#16 0xC000#16 ∧
    ∃ t, exec (.rnd x kk) s = .next t ∧ (t.getV x).toNat ≤ kk.toNat ∧ t.draws = s.draws + 1 ∧
      (∀ r, r ≠ x → t.getV r = s.getV r) ∧ t.pc = s.pc + 2 ∧ SameBut [.v, .pc, .draws] s t

/-! ## Index register and memory (43_index_memory.md) -/

/-- R140: `ANNN` sets `I`. -/
def Obligations.SetIndexWritesI : Prop :=
  ∀ (nnn : Addr12) (s : State), EncodedAs (.ldI nnn) 0xF000#16 0xA000#16 ∧
    ∃ t, exec (.ldI nnn) s = .next t ∧ t.i.toNat = nnn.toNat ∧ t.pc = s.pc + 2 ∧ SameBut [.i, .pc] s t

/-- R141: `FX1E` adds modulo 4096, and `VF` ends as the overflow of the unbounded sum; the 0 without overflow is the
spec's decision D12 (log entry 13). That the flag stays when x is 15 is the spec's decision D11 (log entry 9). -/
def Obligations.AddToIndexWrapsAndFlags : Prop :=
  ∀ (x : Reg) (s : State), EncodedAs (.addI x) 0xF0FF#16 0xF01E#16 ∧
    ∃ t, exec (.addI x) s = .next t ∧ t.i.toNat = (s.i.toNat + (s.getV x).toNat) % 4096 ∧
      (t.getV 15).toNat = (if s.i.toNat + (s.getV x).toNat > 4095 then 1 else 0) ∧
      (∀ r, r ≠ 15 → t.getV r = s.getV r) ∧ t.pc = s.pc + 2 ∧ SameBut [.v, .i, .pc] s t

/-- R142: `FX29` sets `I` to five times `V[x]`, not masked to a digit (the spec's decision D21). -/
def Obligations.GlyphAddressIsFiveTimesTheDigit : Prop :=
  ∀ (x : Reg) (s : State), EncodedAs (.ldF x) 0xF0FF#16 0xF029#16 ∧
    ∃ t, exec (.ldF x) s = .next t ∧ t.i.toNat = 5 * (s.getV x).toNat ∧ t.pc = s.pc + 2 ∧ SameBut [.i, .pc] s t

/-- R143: `FX33` stores the three decimal digits at `I`, or reports an access outside memory. The error's payload is
the spec's decision D23 (log entry 18), that any address may be stored to, the font included, its decision D17 (log
entry 12), and that a store partly outside writes nothing its decision D7 (log entries 2 and 6). That memory ends at
4096 is the spec's decision D2 (log entry 21). -/
def Obligations.DecimalDigitsAreStoredAtI : Prop :=
  ∀ (x : Reg) (s : State), EncodedAs (.ldB x) 0xF0FF#16 0xF033#16 ∧
    (s.i.toNat + 2 < 4096 → ∃ t, exec (.ldB x) s = .next t ∧
      (s.getV x).toNat = 100 * (t.byteAt s.i.toNat).toNat + 10 * (t.byteAt (s.i.toNat + 1)).toNat +
        (t.byteAt (s.i.toNat + 2)).toNat ∧
      (t.byteAt s.i.toNat).toNat ≤ 2 ∧ (t.byteAt (s.i.toNat + 1)).toNat ≤ 9 ∧
      (t.byteAt (s.i.toNat + 2)).toNat ≤ 9 ∧
      SameBytesOutside s.i.toNat 3 s t ∧ t.pc = s.pc + 2 ∧ SameBut [.mem, .pc] s t) ∧
    (4096 ≤ s.i.toNat + 2 → exec (.ldB x) s = .fault (.outOfBounds s.pc .mem (max s.i.toNat 4096)))

/-- R144: `FX55` stores `V[0]` to `V[x]` at `I`, or reports an access outside memory; `I` stays (the spec's decision
D13, log entry 10). The error's payload is the spec's decision D23 (log entry 18), that any address may be stored to,
the font included, its decision D17 (log entry 12), and that a store partly outside writes nothing its decision D7
(log entries 2 and 6). That memory ends at 4096 is the spec's decision D2 (log entry 21). -/
def Obligations.RegistersAreStoredAtI : Prop :=
  ∀ (x : Reg) (s : State), EncodedAs (.ldMemVx x) 0xF0FF#16 0xF055#16 ∧
    (s.i.toNat + x.val < 4096 → ∃ t, exec (.ldMemVx x) s = .next t ∧
      (∀ r, r ≤ x → t.byteAt (s.i.toNat + r.val) = s.getV r) ∧
      SameBytesOutside s.i.toNat (x.val + 1) s t ∧ t.pc = s.pc + 2 ∧ SameBut [.mem, .pc] s t) ∧
    (4096 ≤ s.i.toNat + x.val → exec (.ldMemVx x) s = .fault (.outOfBounds s.pc .mem (max s.i.toNat 4096)))

/-- R145: `FX65` loads `V[0]` to `V[x]` from `I` on, or reports an access outside memory; `I` stays (the spec's
decision D13, log entry 10). The error's payload is the spec's decision D23 (log entry 18), and that a load partly
outside writes nothing its decision D7 (log entries 2 and 6). That memory ends at 4096 is the spec's decision D2 (log
entry 21). -/
def Obligations.RegistersAreLoadedFromI : Prop :=
  ∀ (x : Reg) (s : State), EncodedAs (.ldVxMem x) 0xF0FF#16 0xF065#16 ∧
    (s.i.toNat + x.val < 4096 → ∃ t, exec (.ldVxMem x) s = .next t ∧
      (∀ r, r ≤ x → t.getV r = s.byteAt (s.i.toNat + r.val)) ∧
      (∀ r, x < r → t.getV r = s.getV r) ∧ t.pc = s.pc + 2 ∧ SameBut [.v, .pc] s t) ∧
    (4096 ≤ s.i.toNat + x.val → exec (.ldVxMem x) s = .fault (.outOfBounds s.pc .mem (max s.i.toNat 4096)))

/-- R144 with R145: what `FX55` stored, `FX65` brings back, into whatever registers stand there by then. That any
address may be stored to is the spec's decision D17 (log entry 12). -/
def Obligations.StoredRegistersAreLoadedBack : Prop :=
  ∀ (x : Reg) (s t u : State), exec (.ldMemVx x) s = .next t → u.i = s.i → (∀ a, u.byteAt a = t.byteAt a) →
    ∃ v, exec (.ldVxMem x) u = .next v ∧ (∀ r, r ≤ x → v.getV r = s.getV r) ∧ (∀ r, x < r → v.getV r = u.getV r)

/-- 20_memory.md R53 (the spec's decision D17, log entry 12): a word `FX55` has written where the next fetch reads is
the word it fetches. That the next `PC` may be odd is the spec's decision D16 (log entry 23). -/
def Obligations.StoredWordIsFetchedNext : Prop :=
  ∀ (x r q : Reg) (s t : State), exec (.ldMemVx x) s = .next t → q.val = r.val + 1 → q ≤ x →
    t.pc.toNat = s.i.toNat + r.val →
    ∃ w, fetchWord t = .ok w ∧ w.toNat = (s.getV r).toNat * 256 + (s.getV q).toNat

/-! ## Display (44_display.md) -/

/-- R160: `00E0` unsets every pixel; no register changes. -/
def Obligations.ClearUnsetsEveryPixel : Prop :=
  EncodedAs .cls 0xFFFF#16 0x00E0#16 ∧ ∀ s : State,
    ∃ t, exec .cls s = .next t ∧ (∀ p, t.pixel p = false) ∧ t.pc = s.pc + 2 ∧ SameBut [.fb, .pc] s t

/-- R161 to R163: `DXYN` flips exactly the pixels a set bit of the sprite lands on, and `VF` ends as the collision.
Bit order and wrapping are the spec's decisions D19 and D20 (log entries 5 and 15). The error's payload is the spec's
decision D23 (log entry 18), and that a sprite partly outside changes nothing its decision D7 (log entries 2 and 6).
That memory ends at 4096 is the spec's decision D2 (log entry 21). -/
def Obligations.DrawFlipsExactlyTheSprite : Prop :=
  ∀ (x y : Reg) (n : Nibble) (s : State), EncodedAs (.drw x y n) 0xF000#16 0xD000#16 ∧
    (n = 0 ∨ s.i.toNat + n.toNat - 1 < 4096 → ∃ t, exec (.drw x y n) s = .next t ∧
      (∀ p, SpriteCovers s x y n p → t.pixel p = !s.pixel p) ∧
      (∀ p, ¬ SpriteCovers s x y n p → t.pixel p = s.pixel p) ∧
      ((∃ p, SpriteCovers s x y n p ∧ s.pixel p = true) → t.getV 15 = 1) ∧
      ((∀ p, SpriteCovers s x y n p → s.pixel p = false) → t.getV 15 = 0) ∧
      (∀ r, r ≠ 15 → t.getV r = s.getV r) ∧ t.pc = s.pc + 2 ∧ SameBut [.v, .fb, .pc] s t) ∧
    (n ≠ 0 → 4096 ≤ s.i.toNat + n.toNat - 1 →
      exec (.drw x y n) s = .fault (.outOfBounds s.pc .mem (max s.i.toNat 4096)))

/-- S5 of 95_test_vectors.md, R161: the same sprite drawn again at the same place restores the screen; the second draw
collides exactly where a covered pixel was unset before the first (log entry 16). Which pixels are covered rests on
the spec's decisions D19 (log entry 5) and D20 (log entry 15). -/
def Obligations.DrawingTwiceRestoresTheScreen : Prop :=
  ∀ (x y : Reg) (n : Nibble) (s t u : State), exec (.drw x y n) s = .next t →
    (∀ a, u.byteAt a = s.byteAt a) → u.i = s.i → u.getV x = s.getV x → u.getV y = s.getV y →
    (∀ p, u.pixel p = t.pixel p) →
    ∃ v, exec (.drw x y n) u = .next v ∧ (∀ p, v.pixel p = s.pixel p) ∧
      ((∃ p, SpriteCovers s x y n p ∧ s.pixel p = false) → v.getV 15 = 1) ∧
      ((∀ p, SpriteCovers s x y n p → s.pixel p = true) → v.getV 15 = 0)

/-! ## Keys and timers (45_keys_timers.md) -/

/-- R170, R171: the key skips; a key number above 15 is reported (the spec's decision D18). The error's payload is the
spec's decision D23 (log entry 18). -/
def Obligations.KeySkipsReadTheLatch : Prop :=
  ∀ (x : Reg) (s : State), EncodedAs (.skp x) 0xF0FF#16 0xE09E#16 ∧ EncodedAs (.sknp x) 0xF0FF#16 0xE0A1#16 ∧
    (∀ k : Fin 16, (s.getV x).toNat = k.val →
      (∃ t, exec (.skp x) s = .next t ∧ t.pc = (if s.key[k] = true then s.pc + 4 else s.pc + 2) ∧
        SameBut [.pc] s t) ∧
      (∃ t, exec (.sknp x) s = .next t ∧ t.pc = (if s.key[k] = true then s.pc + 2 else s.pc + 4) ∧
        SameBut [.pc] s t)) ∧
    (15 < (s.getV x).toNat →
      exec (.skp x) s = .fault (.outOfBounds s.pc .key (s.getV x).toNat) ∧
      exec (.sknp x) s = .fault (.outOfBounds s.pc .key (s.getV x).toNat))

/-- R173 (with the decision D10, log entry 8): `FX0A` sets the wait latch and moves past itself, and its own step does
not tick; `V[x]` is not written in it. That an odd `PC` is fetched is the spec's decision D16 (log entry 23). -/
def Obligations.WaitForKeySetsTheLatch : Prop :=
  ∀ (x : Reg) (s : State), EncodedAs (.ldVxK x) 0xF0FF#16 0xF00A#16 ∧
    (∃ t, exec (.ldVxK x) s = .next t ∧ t.wait = { active := true, target := x } ∧ t.pc = s.pc + 2 ∧
      SameBut [.wait, .pc] s t) ∧
    (s.wait.active = false → fetchWord s = .ok (encode (.ldVxK x)) →
      ∃ t, step s = .next t ∧ t.wait = { active := true, target := x } ∧ t.pc = s.pc + 2 ∧
        SameBut [.wait, .pc] s t)

/-- R172: `FX07` reads `DT` as it was before its own step's tick. That an odd `PC` is fetched is the spec's decision
D16 (log entry 23). -/
def Obligations.DelayTimerIsReadBeforeTheTick : Prop :=
  ∀ (x : Reg) (s : State), EncodedAs (.ldVxDt x) 0xF0FF#16 0xF007#16 ∧
    (∃ t, exec (.ldVxDt x) s = .next t ∧ t.getV x = s.dt ∧ (∀ r, r ≠ x → t.getV r = s.getV r) ∧
      t.pc = s.pc + 2 ∧ SameBut [.v, .pc] s t) ∧
    (s.wait.active = false → fetchWord s = .ok (encode (.ldVxDt x)) →
      ∃ t, step s = .next t ∧ t.getV x = s.dt ∧ t.dt.toNat = s.dt.toNat - 1)

/-- R174, R175: `FX15` and `FX18` set their timer, and their own step's tick already counts it down (the spec's
decision D9, log entry 7). That an odd `PC` is fetched is the spec's decision D16 (log entry 23). -/
def Obligations.TimersAreSetAndTickInTheSameStep : Prop :=
  ∀ (x : Reg) (s : State),
    EncodedAs (.ldDtVx x) 0xF0FF#16 0xF015#16 ∧ EncodedAs (.ldStVx x) 0xF0FF#16 0xF018#16 ∧
    (∃ t, exec (.ldDtVx x) s = .next t ∧ t.dt = s.getV x ∧ t.pc = s.pc + 2 ∧ SameBut [.dt, .pc] s t) ∧
    (∃ t, exec (.ldStVx x) s = .next t ∧ t.st = s.getV x ∧ t.pc = s.pc + 2 ∧ SameBut [.st, .pc] s t) ∧
    (s.wait.active = false → fetchWord s = .ok (encode (.ldDtVx x)) →
      ∃ t, step s = .next t ∧ t.dt.toNat = (s.getV x).toNat - 1 ∧ t.st.toNat = s.st.toNat - 1) ∧
    (s.wait.active = false → fetchWord s = .ok (encode (.ldStVx x)) →
      ∃ t, step s = .next t ∧ t.st.toNat = (s.getV x).toNat - 1 ∧ t.dt.toNat = s.dt.toNat - 1 ∧
        soundActive t = decide (1 < (s.getV x).toNat))

/-! ## Host transactions (60_exceptions.md, 70_reset_and_hazards.md) -/

/-- R232 (with the decision D28): `loadProgram` copies at most 3584 bytes to 0x200 and changes nothing else, or
reports `LoadOverflow`. The limit is what memory holds from 0x200 on, so that it is 3584 rests on the spec's decision
D2 (log entry 21). -/
def Obligations.LoadProgramCopiesTheBytes : Prop :=
  ∀ (s : State) (bytes : List Byte),
    (bytes.length ≤ 3584 → ∃ t, loadProgram s bytes = .ok (t, bytes.length) ∧
      (∀ j, ∀ h : j < bytes.length, t.byteAt (0x200 + j) = bytes[j]) ∧
      SameBytesOutside 0x200 bytes.length s t ∧ SameBut [.mem] s t) ∧
    (3584 < bytes.length → loadProgram s bytes = .error .loadOverflow)

/-- R214, R205: `setKey` writes one latch and changes nothing else; an index above 15 is reported. -/
def Obligations.SetKeyWritesOneLatch : Prop :=
  ∀ (s : State) (k : Nat) (b : Bool),
    (∀ h : k < 16, ∃ t, setKey s k b = .ok t ∧ t.key[k] = b ∧
      (∀ j : Fin 16, j.val ≠ k → t.key[j] = s.key[j]) ∧ SameBut [.key] s t) ∧
    (16 ≤ k → setKey s k b = .error .keyIndexError)

/-- R212, R213: the two read ports answer the pixel and the sound signal and change nothing; an index above 2047 is
reported (the spec's decision D28). -/
def Obligations.ReadPortsChangeNothing : Prop :=
  ∀ (s : State) (p : Nat),
    (p < 2048 → transact s (.readPixel p) = .ok (s, .bit (s.pixel p))) ∧
    (2048 ≤ p → transact s (.readPixel p) = .ok (s, .error .pixelIndexError)) ∧
    transact s .soundActive = .ok (s, .bit (decide (s.st ≠ 0)))

/-! ## What cannot be observed, and the end points -/

/-- R19, R25: dead stack entries, and the wait's target while no wait is active, change nothing a step does: two
states that differ only there give the same error, or next states that again differ only there. Both steps are taken
for the same draw, which R92 fixes: a `CXKK` reads one `Config.draw` at equal counters, the model's choice of log
entry 1. -/
def Obligations.DeadStackEntriesAreUnobservable : Prop :=
  ∀ s t : State, Alike s t → SameOutcome Alike (step s) (step t)

/-- R22: no instruction reads `ST`: a different sound timer changes no error and no other part of the next state. Both
steps are taken for the same draw, which R92 fixes: a `CXKK` reads one `Config.draw` at equal counters, the model's
choice of log entry 1. -/
def Obligations.SoundTimerChangesNothingElse : Prop :=
  ∀ (s : State) (b : Byte), SameOutcome (SameBut [.st]) (step s) (step { s with st := b })

/-- R238 (the spec's decision D29, log entry 27): at a self-loop every step completes at the same self-loop and
changes only the timers, which count down to 0. That a self-loop at an odd address runs is the spec's decision D16
(log entry 23). -/
def Obligations.SelfLoopOnlyTicks : Prop :=
  ∀ s : State, AtSelfLoop s →
    ∃ t, step s = .next t ∧ AtSelfLoop t ∧ SameBut [.dt, .st] s t ∧
      t.dt.toNat = s.dt.toNat - 1 ∧ t.st.toNat = s.st.toNat - 1
end

