-- ==== Sys2Proof/Laws/Decode.lean ====
section
/-! SUPPORT. The fields of an encoded word are the operands it was made from, and the nibbles each row tests. -/

namespace Sys2Proof

@[simp] theorem regBits_toNat (r : Reg) : (regBits r).toNat = r.val := rfl

theorem wordNNN_toNat (op : Nibble) (nnn : Addr12) : (wordNNN op nnn).toNat = op.toNat * 4096 + nnn.toNat := by
  have := nnn.isLt
  simp only [wordNNN, BitVec.toNat_append]
  rw [← Nat.shiftLeft_add_eq_or_of_lt this, Nat.shiftLeft_eq]

theorem wordXKK_toNat (op : Nibble) (x : Reg) (kk : Byte) :
    (wordXKK op x kk).toNat = op.toNat * 4096 + x.val * 256 + kk.toNat := by
  have h1 := kk.isLt
  have h2 := (regBits x).isLt
  simp only [wordXKK, BitVec.toNat_append]
  rw [← Nat.shiftLeft_add_eq_or_of_lt h1, ← Nat.shiftLeft_add_eq_or_of_lt h2, Nat.shiftLeft_eq, Nat.shiftLeft_eq,
    regBits_toNat]
  omega

theorem wordXYN_toNat (op : Nibble) (x y : Reg) (n : Nibble) :
    (wordXYN op x y n).toNat = op.toNat * 4096 + x.val * 256 + y.val * 16 + n.toNat := by
  have h1 := n.isLt
  have h2 := (regBits x).isLt
  have h3 := (regBits y).isLt
  simp only [wordXYN, BitVec.toNat_append]
  rw [← Nat.shiftLeft_add_eq_or_of_lt h1, ← Nat.shiftLeft_add_eq_or_of_lt h3, ← Nat.shiftLeft_add_eq_or_of_lt h2,
    Nat.shiftLeft_eq, Nat.shiftLeft_eq, Nat.shiftLeft_eq, regBits_toNat, regBits_toNat]
  omega

theorem xField_val (w : Word) : (xField w).val = w.toNat / 256 % 16 := by
  simp [xField, Nat.shiftRight_eq_div_pow]

theorem yField_val (w : Word) : (yField w).val = w.toNat / 16 % 16 := by
  simp [yField, Nat.shiftRight_eq_div_pow]

theorem nField_toNat (w : Word) : (nField w).toNat = w.toNat % 16 := by simp [nField]

theorem nnnField_toNat (w : Word) : (nnnField w).toNat = w.toNat % 4096 := by simp [nnnField]

theorem kkField_toNat (w : Word) : (kkField w).toNat = w.toNat % 256 := by simp [kkField]

@[simp] theorem nnnField_wordNNN (op : Nibble) (nnn : Addr12) : nnnField (wordNNN op nnn) = nnn := by
  apply BitVec.eq_of_toNat_eq
  have := nnn.isLt
  rw [nnnField_toNat, wordNNN_toNat]; omega

@[simp] theorem xField_wordXKK (op : Nibble) (x : Reg) (kk : Byte) : xField (wordXKK op x kk) = x := by
  apply Fin.ext
  have := kk.isLt; have := x.isLt
  rw [xField_val, wordXKK_toNat]; omega

@[simp] theorem kkField_wordXKK (op : Nibble) (x : Reg) (kk : Byte) : kkField (wordXKK op x kk) = kk := by
  apply BitVec.eq_of_toNat_eq
  have := kk.isLt
  rw [kkField_toNat, wordXKK_toNat]; omega

@[simp] theorem xField_wordXYN (op : Nibble) (x y : Reg) (n : Nibble) : xField (wordXYN op x y n) = x := by
  apply Fin.ext
  have := n.isLt; have := x.isLt; have := y.isLt
  rw [xField_val, wordXYN_toNat]; omega

@[simp] theorem yField_wordXYN (op : Nibble) (x y : Reg) (n : Nibble) : yField (wordXYN op x y n) = y := by
  apply Fin.ext
  have := n.isLt; have := y.isLt
  rw [yField_val, wordXYN_toNat]; omega

@[simp] theorem nField_wordXYN (op : Nibble) (x y : Reg) (n : Nibble) : nField (wordXYN op x y n) = n := by
  apply BitVec.eq_of_toNat_eq
  have := n.isLt
  rw [nField_toNat, wordXYN_toNat]; omega

/-! ## What a row tests, as arithmetic -/

/-- The mask 0xF000 keeps the opcode nibble. -/
theorem and_F000_toNat (w : Word) : (w &&& 0xF000#16).toNat = w.toNat / 4096 * 4096 := by
  have h : w &&& 0xF000#16 = (w >>> 12) <<< 12 := by
    ext j hj
    interval_cases j <;> simp
  have := w.isLt
  rw [h, BitVec.toNat_shiftLeft, BitVec.toNat_ushiftRight, Nat.shiftRight_eq_div_pow, Nat.shiftLeft_eq]
  omega

/-- The low nibble of a word. -/
theorem and_000F_toNat (w : Word) : (w &&& 0x000F#16).toNat = w.toNat % 16 := by
  have h : w &&& 0x000F#16 = (w.extractLsb' 0 4).setWidth 16 := by
    ext j hj
    interval_cases j <;> simp
  rw [h]; simp; omega

/-- The low byte of a word. -/
theorem and_00FF_toNat (w : Word) : (w &&& 0x00FF#16).toNat = w.toNat % 256 := by
  have h : w &&& 0x00FF#16 = (w.extractLsb' 0 8).setWidth 16 := by
    ext j hj
    interval_cases j <;> simp
  rw [h]; simp; omega

/-- The mask 0xF00F keeps the opcode nibble and the low nibble. -/
theorem and_F00F_toNat (w : Word) : (w &&& 0xF00F#16).toNat = w.toNat / 4096 * 4096 + w.toNat % 16 := by
  have h : w &&& 0xF00F#16 = (w &&& 0xF000#16) + (w &&& 0x000F#16) := by
    rw [BitVec.add_eq_or_of_and_eq_zero]
    · ext j hj; interval_cases j <;> simp
    · ext j hj; interval_cases j <;> simp
  have := w.isLt
  rw [h, BitVec.toNat_add, and_F000_toNat, and_000F_toNat]; omega

/-- The mask 0xF0FF keeps the opcode nibble and the low byte. -/
theorem and_F0FF_toNat (w : Word) : (w &&& 0xF0FF#16).toNat = w.toNat / 4096 * 4096 + w.toNat % 256 := by
  have h : w &&& 0xF0FF#16 = (w &&& 0xF000#16) + (w &&& 0x00FF#16) := by
    rw [BitVec.add_eq_or_of_and_eq_zero]
    · ext j hj; interval_cases j <;> simp
    · ext j hj; interval_cases j <;> simp
  have := w.isLt
  rw [h, BitVec.toNat_add, and_F000_toNat, and_00FF_toNat]; omega

/-- A row of mask 0xFFFF tests the whole word. -/
theorem hits_FFFF (w p : Word) (f : Word → Instr) : Row.hits ⟨0xFFFF#16, p, f⟩ w = true ↔ w.toNat = p.toNat := by
  have h : w &&& 0xFFFF#16 = w := by ext j hj; interval_cases j <;> simp
  simp [Row.hits, h, BitVec.toNat_inj]

/-- A row of mask 0xF000 tests the opcode nibble. -/
theorem hits_F000 (w p : Word) (f : Word → Instr) :
    Row.hits ⟨0xF000#16, p, f⟩ w = true ↔ w.toNat / 4096 * 4096 = p.toNat := by
  simp only [Row.hits, beq_iff_eq, ← BitVec.toNat_inj, and_F000_toNat]

/-- A row of mask 0xF00F tests the opcode nibble and the low nibble. -/
theorem hits_F00F (w p : Word) (f : Word → Instr) :
    Row.hits ⟨0xF00F#16, p, f⟩ w = true ↔ w.toNat / 4096 * 4096 + w.toNat % 16 = p.toNat := by
  simp only [Row.hits, beq_iff_eq, ← BitVec.toNat_inj, and_F00F_toNat]

/-- A row of mask 0xF0FF tests the opcode nibble and the low byte. -/
theorem hits_F0FF (w p : Word) (f : Word → Instr) :
    Row.hits ⟨0xF0FF#16, p, f⟩ w = true ↔ w.toNat / 4096 * 4096 + w.toNat % 256 = p.toNat := by
  simp only [Row.hits, beq_iff_eq, ← BitVec.toNat_inj, and_F0FF_toNat]

/-! ## Bytes -/

theorem joinBytes_toNat (hi lo : Byte) : (joinBytes hi lo).toNat = hi.toNat * 256 + lo.toNat := by
  have := lo.isLt
  show (hi ++ lo).toNat = _
  rw [BitVec.toNat_append, ← Nat.shiftLeft_add_eq_or_of_lt this, Nat.shiftLeft_eq]

theorem highByte_toNat (w : Word) : (highByte w).toNat = w.toNat / 256 := by
  have := w.isLt
  simp [highByte, Nat.shiftRight_eq_div_pow]; omega

theorem lowByte_toNat (w : Word) : (lowByte w).toNat = w.toNat % 256 := by simp [lowByte]

@[simp] theorem joinBytes_high_low (w : Word) : joinBytes (highByte w) (lowByte w) = w := by
  apply BitVec.eq_of_toNat_eq
  rw [joinBytes_toNat, highByte_toNat, lowByte_toNat]; omega

/-- The decoder of bytes reads the word its first two bytes form, the first byte the high one (R43). -/
theorem decode_cons_cons (hi lo : Byte) (rest : List Byte) :
    decode (hi :: lo :: rest) =
      match decodeWord (joinBytes hi lo) with
      | some i => .ok (i, rest)
      | none => .error (.noMatch (joinBytes hi lo)) := rfl

theorem decode_two_eq_ok {hi lo : Byte} {i : Instr} {rest tail : List Byte}
    (h : decode (hi :: lo :: rest) = .ok (i, tail)) : decodeWord (joinBytes hi lo) = some i := by
  rw [decode_cons_cons] at h
  split at h
  · next j hj => cases h; exact hj
  · cases h

end Sys2Proof
end

