-- ==== Sys2Proof/Laws/Host.lean ====
section
/-! SUPPORT. What a host transaction can do to the state, once. -/

namespace Sys2Proof.Machine

/-- A transaction leaves the state as it is, or it is a load that fits, a key that exists, or a step that answers a
next state. -/
theorem transact_ok {s t : State} {c : HostCall} {a : HostReply} (h : transact s c = .ok (t, a)) :
    t = s ∨
    (∃ bytes, c = .loadProgram bytes ∧ bytes.length ≤ 3584 ∧
      t = { s with mem := writeCells s.mem Config.progBase bytes }) ∨
    (∃ k b, ∃ hk : k < 16, c = .setKey k b ∧ t = { s with key := s.key.set k b }) ∨
    (c = .step ∧ step s = .next t) := by
  cases c with
  | loadProgram bytes =>
    simp only [transact, loadProgram] at h
    by_cases hl : bytes.length > Config.memSize - Config.progBase
    · simp only [if_pos hl] at h
      cases h
      exact .inl rfl
    · simp only [if_neg hl] at h
      cases h
      exact .inr (.inl ⟨bytes, rfl, Nat.le_of_not_gt hl, rfl⟩)
  | step =>
    simp only [transact, engineStep] at h
    cases he : step s with
    | next u =>
      rw [he] at h
      cases h
      exact .inr (.inr (.inr ⟨rfl, rfl⟩))
    | fault f =>
      rw [he] at h
      cases h
      exact .inl rfl
    | refused r => rw [he] at h; cases h
  | setKey k b =>
    simp only [transact, setKey] at h
    by_cases hk : k < 16
    · simp only [dif_pos hk] at h
      cases h
      exact .inr (.inr (.inl ⟨k, b, hk, rfl, rfl⟩))
    · simp only [dif_neg hk] at h
      cases h
      exact .inl rfl
  | readPixel p =>
    simp only [transact, readPixel] at h
    by_cases hp : p < Config.nPixels
    · simp only [if_pos hp] at h
      cases h
      exact .inl rfl
    · simp only [if_neg hp] at h
      cases h
      exact .inl rfl
  | soundActive =>
    cases h
    exact .inl rfl

end Sys2Proof.Machine
end

