-- ==== Sys2Proof/Laws/Memory.lean ====
section
/-! SUPPORT. The laws of memory: a write is read back, every other byte stays, and every operation keeps the canonical
form (20_memory.md R47). The two reading laws hold of any list of cells, canonical or not. -/

namespace Sys2Proof.Machine

theorem readCell_filter_self (m : Memory) (a : Nat) : readCell (m.filter (·.1 ≠ a)) a = bootByte a := by
  induction m with
  | nil => rfl
  | cons c m ih =>
    by_cases h : c.1 = a
    · simpa [List.filter_cons, h] using ih
    · simpa [List.filter_cons, h, readCell] using ih

theorem readCell_filter_ne (m : Memory) {a b : Nat} (h : b ≠ a) :
    readCell (m.filter (·.1 ≠ a)) b = readCell m b := by
  induction m with
  | nil => rfl
  | cons c m ih =>
    by_cases hc : c.1 = a
    · have : c.1 ≠ b := fun e => h (e ▸ hc)
      simpa [List.filter_cons, hc, readCell, Ne.symm h] using ih
    · by_cases hb : c.1 = b
      · simp [readCell, hb, h]
      · simpa [List.filter_cons, hc, readCell, hb] using ih

theorem readCell_insertCell_self (m : Memory) (a : Nat) (b : Byte) (h : ∀ c ∈ m, c.1 ≠ a) :
    readCell (insertCell m a b) a = b := by
  induction m with
  | nil => simp [insertCell, readCell]
  | cons c m ih =>
    have hc : c.1 ≠ a := h c (by simp)
    have hm := ih fun d hd => h d (by simp [hd])
    unfold insertCell
    split <;> simp [readCell, hc, hm]

theorem readCell_insertCell_ne (m : Memory) {a q : Nat} (b : Byte) (h : q ≠ a) :
    readCell (insertCell m a b) q = readCell m q := by
  induction m with
  | nil => simp [insertCell, readCell, Ne.symm h]
  | cons c m ih =>
    unfold insertCell
    split
    · simp [readCell, Ne.symm h]
    · simp [readCell, ih]

/-- A byte written is read back. -/
@[simp] theorem readCell_writeCell_self (m : Memory) (a : Nat) (b : Byte) :
    readCell (writeCell m a b) a = b := by
  unfold writeCell
  split
  · next h => rw [readCell_filter_self, h]
  · exact readCell_insertCell_self _ _ _ (by simp)

/-- A write leaves every other byte alone. -/
theorem readCell_writeCell_ne (m : Memory) {a q : Nat} (b : Byte) (h : q ≠ a) :
    readCell (writeCell m a b) q = readCell m q := by
  unfold writeCell
  split
  · exact readCell_filter_ne m h
  · rw [readCell_insertCell_ne _ _ h, readCell_filter_ne m h]

/-- Bytes below a run of written bytes stay. -/
theorem readCell_writeCells_below (m : Memory) (a : Nat) (bs : List Byte) {q : Nat} (h : q < a) :
    readCell (writeCells m a bs) q = readCell m q := by
  induction bs generalizing m a with
  | nil => rfl
  | cons b bs ih => rw [writeCells, ih _ _ (by omega), readCell_writeCell_ne _ _ (by omega)]

/-- Bytes above a run of written bytes stay. -/
theorem readCell_writeCells_above (m : Memory) (a : Nat) (bs : List Byte) {q : Nat} (h : a + bs.length ≤ q) :
    readCell (writeCells m a bs) q = readCell m q := by
  induction bs generalizing m a with
  | nil => rfl
  | cons b bs ih =>
    simp only [List.length_cons] at h
    rw [writeCells, ih _ _ (by omega), readCell_writeCell_ne _ _ (by omega)]

/-- The bytes of a written run are read back. -/
theorem readCell_writeCells (m : Memory) (a : Nat) (bs : List Byte) (j : Nat) (h : j < bs.length) :
    readCell (writeCells m a bs) (a + j) = bs[j] := by
  induction bs generalizing m a j with
  | nil => simp at h
  | cons b bs ih =>
    cases j with
    | zero => rw [writeCells, readCell_writeCells_below _ _ _ (by omega)]; simp
    | succ j =>
      have h' : j < bs.length := by simpa using h
      have := ih (writeCell m a b) (a + 1) j h'
      rw [writeCells, show a + (j + 1) = a + 1 + j by omega, this]; simp

@[simp] theorem readCells_length (m : Memory) (a n : Nat) : (readCells m a n).length = n := by
  induction n generalizing a with
  | zero => rfl
  | succ n ih => simp [readCells, ih]

/-- A run of bytes read is the bytes at its addresses. -/
theorem readCells_getElem (m : Memory) (a n j : Nat) (h : j < (readCells m a n).length) :
    (readCells m a n)[j] = readCell m (a + j) := by
  induction n generalizing a j with
  | zero => simp at h
  | succ n ih =>
    cases j with
    | zero => simp [readCells]
    | succ j =>
      have h' : j < (readCells m (a + 1) n).length := by simpa [readCells] using h
      have := ih (a + 1) j h'
      simp only [readCells, List.getElem_cons_succ, this]
      congr 1; omega

/-- Reading depends on the bytes read only. -/
theorem readCells_congr {m m' : Memory} {a n : Nat} (h : ∀ q, readCell m q = readCell m' q) :
    readCells m a n = readCells m' a n := by
  induction n generalizing a with
  | zero => rfl
  | succ n ih => simp [readCells, h, ih]

/-! ## The canonical form -/

theorem mem_insertCell {m : Memory} {a : Nat} {b : Byte} {d : Host.Cell} :
    d ∈ insertCell m a b ↔ d = (a, b) ∨ d ∈ m := by
  induction m with
  | nil => simp [insertCell]
  | cons c m ih =>
    unfold insertCell
    split
    · simp
    · simp only [List.mem_cons, ih]; tauto

theorem pairwise_insertCell {m : Memory} {a : Nat} (b : Byte) (hm : m.Pairwise (fun c d => c.1 < d.1))
    (ha : ∀ c ∈ m, c.1 ≠ a) : (insertCell m a b).Pairwise (fun c d => c.1 < d.1) := by
  induction m with
  | nil => simp [insertCell]
  | cons c m ih =>
    obtain ⟨hc, hm'⟩ := List.pairwise_cons.mp hm
    unfold insertCell
    split
    · next h =>
      refine List.pairwise_cons.mpr ⟨fun d hd => ?_, hm⟩
      rcases List.mem_cons.mp hd with rfl | hd
      · exact h
      · exact Nat.lt_trans h (hc d hd)
    · next h =>
      refine List.pairwise_cons.mpr ⟨fun d hd => ?_, ih hm' fun e he => ha e (by simp [he])⟩
      rcases mem_insertCell.mp hd with rfl | hd
      · have := ha c (by simp)
        omega
      · exact hc d hd

/-- A write inside memory keeps the canonical form. -/
theorem wf_writeCell {m : Memory} (hm : Memory.wf m) {a : Nat} (ha : a < Config.memSize) (b : Byte) :
    Memory.wf (writeCell m a b) := by
  have hp : (m.filter (·.1 ≠ a)).Pairwise (fun c d => c.1 < d.1) := hm.1.filter _
  have hf : ∀ c ∈ m.filter (·.1 ≠ a), c.1 < Config.memSize ∧ c.2 ≠ bootByte c.1 :=
    fun c hc => hm.2 c (List.mem_filter.mp hc).1
  unfold writeCell
  split
  · exact ⟨hp, hf⟩
  · next hb =>
    refine ⟨pairwise_insertCell b hp (by simp), fun c hc => ?_⟩
    rcases mem_insertCell.mp hc with rfl | hc
    · exact ⟨ha, hb⟩
    · exact hf c hc

/-- A run of writes inside memory keeps the canonical form. -/
theorem wf_writeCells {m : Memory} (hm : Memory.wf m) (a : Nat) (bs : List Byte)
    (h : a + bs.length ≤ Config.memSize) : Memory.wf (writeCells m a bs) := by
  induction bs generalizing m a with
  | nil => exact hm
  | cons b bs ih =>
    simp only [List.length_cons] at h
    exact ih (wf_writeCell hm (by omega) b) (a + 1) (by omega)

end Sys2Proof.Machine
end

