-- ==== Sys2Proof/Laws/State.lean ====
section
/-! SUPPORT. One lemma per field per update of the state, true by rfl, so that no later proof unfolds a record update,
and the accessors over them. -/

namespace Sys2Proof.Machine

/-! ## `setV` -/

@[simp] theorem State.setV_mem (s : State) (r : Reg) (b : Byte) : (s.setV r b).mem = s.mem := rfl
@[simp] theorem State.setV_i (s : State) (r : Reg) (b : Byte) : (s.setV r b).i = s.i := rfl
@[simp] theorem State.setV_pc (s : State) (r : Reg) (b : Byte) : (s.setV r b).pc = s.pc := rfl
@[simp] theorem State.setV_sp (s : State) (r : Reg) (b : Byte) : (s.setV r b).sp = s.sp := rfl
@[simp] theorem State.setV_stack (s : State) (r : Reg) (b : Byte) : (s.setV r b).stack = s.stack := rfl
@[simp] theorem State.setV_dt (s : State) (r : Reg) (b : Byte) : (s.setV r b).dt = s.dt := rfl
@[simp] theorem State.setV_st (s : State) (r : Reg) (b : Byte) : (s.setV r b).st = s.st := rfl
@[simp] theorem State.setV_fb (s : State) (r : Reg) (b : Byte) : (s.setV r b).fb = s.fb := rfl
@[simp] theorem State.setV_key (s : State) (r : Reg) (b : Byte) : (s.setV r b).key = s.key := rfl
@[simp] theorem State.setV_wait (s : State) (r : Reg) (b : Byte) : (s.setV r b).wait = s.wait := rfl
@[simp] theorem State.setV_draws (s : State) (r : Reg) (b : Byte) : (s.setV r b).draws = s.draws := rfl

/-! ## `advance` -/

@[simp] theorem advance_mem (s : State) : (advance s).mem = s.mem := rfl
@[simp] theorem advance_v (s : State) : (advance s).v = s.v := rfl
@[simp] theorem advance_i (s : State) : (advance s).i = s.i := rfl
@[simp] theorem advance_pc (s : State) : (advance s).pc = s.pc + 2 := rfl
@[simp] theorem advance_sp (s : State) : (advance s).sp = s.sp := rfl
@[simp] theorem advance_stack (s : State) : (advance s).stack = s.stack := rfl
@[simp] theorem advance_dt (s : State) : (advance s).dt = s.dt := rfl
@[simp] theorem advance_st (s : State) : (advance s).st = s.st := rfl
@[simp] theorem advance_fb (s : State) : (advance s).fb = s.fb := rfl
@[simp] theorem advance_key (s : State) : (advance s).key = s.key := rfl
@[simp] theorem advance_wait (s : State) : (advance s).wait = s.wait := rfl
@[simp] theorem advance_draws (s : State) : (advance s).draws = s.draws := rfl

/-! ## `skipIf` -/

@[simp] theorem skipIf_mem (c : Bool) (s : State) : (skipIf c s).mem = s.mem := rfl
@[simp] theorem skipIf_v (c : Bool) (s : State) : (skipIf c s).v = s.v := rfl
@[simp] theorem skipIf_i (c : Bool) (s : State) : (skipIf c s).i = s.i := rfl
@[simp] theorem skipIf_pc (c : Bool) (s : State) : (skipIf c s).pc = if c then s.pc + 4 else s.pc + 2 := rfl
@[simp] theorem skipIf_sp (c : Bool) (s : State) : (skipIf c s).sp = s.sp := rfl
@[simp] theorem skipIf_stack (c : Bool) (s : State) : (skipIf c s).stack = s.stack := rfl
@[simp] theorem skipIf_dt (c : Bool) (s : State) : (skipIf c s).dt = s.dt := rfl
@[simp] theorem skipIf_st (c : Bool) (s : State) : (skipIf c s).st = s.st := rfl
@[simp] theorem skipIf_fb (c : Bool) (s : State) : (skipIf c s).fb = s.fb := rfl
@[simp] theorem skipIf_key (c : Bool) (s : State) : (skipIf c s).key = s.key := rfl
@[simp] theorem skipIf_wait (c : Bool) (s : State) : (skipIf c s).wait = s.wait := rfl
@[simp] theorem skipIf_draws (c : Bool) (s : State) : (skipIf c s).draws = s.draws := rfl

/-! ## `jumpTo` -/

@[simp] theorem jumpTo_mem (s : State) (w : Word) : (jumpTo s w).mem = s.mem := rfl
@[simp] theorem jumpTo_v (s : State) (w : Word) : (jumpTo s w).v = s.v := rfl
@[simp] theorem jumpTo_i (s : State) (w : Word) : (jumpTo s w).i = s.i := rfl
@[simp] theorem jumpTo_pc (s : State) (w : Word) : (jumpTo s w).pc = w := rfl
@[simp] theorem jumpTo_sp (s : State) (w : Word) : (jumpTo s w).sp = s.sp := rfl
@[simp] theorem jumpTo_stack (s : State) (w : Word) : (jumpTo s w).stack = s.stack := rfl
@[simp] theorem jumpTo_dt (s : State) (w : Word) : (jumpTo s w).dt = s.dt := rfl
@[simp] theorem jumpTo_st (s : State) (w : Word) : (jumpTo s w).st = s.st := rfl
@[simp] theorem jumpTo_fb (s : State) (w : Word) : (jumpTo s w).fb = s.fb := rfl
@[simp] theorem jumpTo_key (s : State) (w : Word) : (jumpTo s w).key = s.key := rfl
@[simp] theorem jumpTo_wait (s : State) (w : Word) : (jumpTo s w).wait = s.wait := rfl
@[simp] theorem jumpTo_draws (s : State) (w : Word) : (jumpTo s w).draws = s.draws := rfl

/-! ## Reading registers, bytes and pixels through updates -/

theorem State.setV_v (s : State) (r : Reg) (b : Byte) : (s.setV r b).v = s.v.set r.val b := rfl

@[simp] theorem State.getV_setV_self (s : State) (r : Reg) (b : Byte) : (s.setV r b).getV r = b := by
  simp [State.getV, State.setV]

theorem State.getV_setV_ne {s : State} {r q : Reg} (h : q ≠ r) (b : Byte) : (s.setV r b).getV q = s.getV q := by
  have : r.val ≠ q.val := fun e => h (Fin.ext e.symm)
  simp [State.getV, State.setV, this]

theorem State.getV_setV (s : State) (r q : Reg) (b : Byte) :
    (s.setV r b).getV q = if q = r then b else s.getV q := by
  split
  · next h => subst h; simp
  · next h => exact State.getV_setV_ne h b

@[simp] theorem advance_getV (s : State) (r : Reg) : (advance s).getV r = s.getV r := rfl
@[simp] theorem skipIf_getV (c : Bool) (s : State) (r : Reg) : (skipIf c s).getV r = s.getV r := rfl
@[simp] theorem jumpTo_getV (s : State) (w : Word) (r : Reg) : (jumpTo s w).getV r = s.getV r := rfl

@[simp] theorem State.setV_byteAt (s : State) (r : Reg) (b : Byte) (a : Nat) :
    (s.setV r b).byteAt a = s.byteAt a := rfl
@[simp] theorem advance_byteAt (s : State) (a : Nat) : (advance s).byteAt a = s.byteAt a := rfl
@[simp] theorem skipIf_byteAt (c : Bool) (s : State) (a : Nat) : (skipIf c s).byteAt a = s.byteAt a := rfl
@[simp] theorem jumpTo_byteAt (s : State) (w : Word) (a : Nat) : (jumpTo s w).byteAt a = s.byteAt a := rfl

@[simp] theorem State.setV_pixel (s : State) (r : Reg) (b : Byte) (p : Nat) :
    (s.setV r b).pixel p = s.pixel p := rfl
@[simp] theorem advance_pixel (s : State) (p : Nat) : (advance s).pixel p = s.pixel p := rfl
@[simp] theorem skipIf_pixel (c : Bool) (s : State) (p : Nat) : (skipIf c s).pixel p = s.pixel p := rfl
@[simp] theorem jumpTo_pixel (s : State) (w : Word) (p : Nat) : (jumpTo s w).pixel p = s.pixel p := rfl

end Sys2Proof.Machine
end

