-- ==== Sys2Proof/Laws/Ops.lean ====
section
/-! SUPPORT. What each shared operation can do, once: the provers cite these instead of unfolding the operation. -/

namespace Sys2Proof.Machine

/-! ## Memory accesses -/

theorem memRead_inside {s : State} {a n : Nat} (h : a + n - 1 < Config.memSize) :
    memRead s a n = .ok (readCells s.mem a n) := if_neg (Nat.not_le.mpr h)

theorem memRead_outside {s : State} {a n : Nat} (h : Config.memSize ≤ a + n - 1) :
    memRead s a n = .error (memError s a) := if_pos h

theorem memWrite_inside {s : State} {a : Nat} {bs : List Byte} (h : a + bs.length - 1 < Config.memSize) :
    memWrite s a bs = .ok { s with mem := writeCells s.mem a bs } := if_neg (Nat.not_le.mpr h)

theorem memWrite_outside {s : State} {a : Nat} {bs : List Byte} (h : Config.memSize ≤ a + bs.length - 1) :
    memWrite s a bs = .error (memError s a) := if_pos h

theorem storeAtI_inside {s : State} {bs : List Byte} (h : s.i.toNat + bs.length - 1 < Config.memSize) :
    storeAtI bs s = .next (advance { s with mem := writeCells s.mem s.i.toNat bs }) := by
  simp only [storeAtI, memWrite_inside h]

theorem storeAtI_outside {s : State} {bs : List Byte} (h : Config.memSize ≤ s.i.toNat + bs.length - 1) :
    storeAtI bs s = .fault (memError s s.i.toNat) := by
  simp only [storeAtI, memWrite_outside h, raiseError]

/-- A store at `I` that answers a next state has written its bytes, all inside memory, and moved on. -/
theorem storeAtI_next {s t : State} {bs : List Byte} (h : storeAtI bs s = .next t) :
    s.i.toNat + bs.length - 1 < Config.memSize ∧
      t = advance { s with mem := writeCells s.mem s.i.toNat bs } := by
  by_cases hr : s.i.toNat + bs.length - 1 < Config.memSize
  · rw [storeAtI_inside hr] at h
    cases h
    exact ⟨hr, rfl⟩
  · rw [storeAtI_outside (Nat.le_of_not_lt hr)] at h
    cases h

/-- The bytes of a store at `I` are read back. -/
theorem storeAtI_byteAt {s t : State} {bs : List Byte} (h : storeAtI bs s = .next t) (j : Nat)
    (hj : j < bs.length) : t.byteAt (s.i.toNat + j) = bs[j] := by
  obtain ⟨-, rfl⟩ := storeAtI_next h
  exact readCell_writeCells _ _ _ j hj

/-- A store at `I` leaves every other byte alone. -/
theorem storeAtI_byteAt_other {s t : State} {bs : List Byte} (h : storeAtI bs s = .next t) {q : Nat}
    (hq : q < s.i.toNat ∨ s.i.toNat + bs.length ≤ q) : t.byteAt q = s.byteAt q := by
  obtain ⟨-, rfl⟩ := storeAtI_next h
  rcases hq with hq | hq
  · exact readCell_writeCells_below _ _ _ hq
  · exact readCell_writeCells_above _ _ _ hq

@[simp] theorem decimalDigits_length (a : Byte) : (decimalDigits a).length = 3 := rfl

@[simp] theorem registerRun_length (s : State) (x : Reg) : (registerRun s x).length = x.val + 1 := by
  have := x.isLt
  simp only [registerRun, List.length_take, Vector.length_toList]; omega

theorem registerRun_getElem (s : State) (x : Reg) (r : Reg) (h : r.val < (registerRun s x).length) :
    (registerRun s x)[r.val] = s.getV r := by
  simp [registerRun, State.getV]

theorem loadRun_getElem (v : Vector Byte 16) (j : Nat) (bs : List Byte) (k : Nat) (hk : k < 16) :
    (loadRun v j bs)[k] = if h : j ≤ k ∧ k < j + bs.length then bs[k - j]'(by omega) else v[k] := by
  induction bs generalizing v j with
  | nil => simp [loadRun]
  | cons b bs ih =>
    rw [loadRun, ih]
    by_cases h1 : j + 1 ≤ k ∧ k < j + 1 + bs.length
    · have h2 : j ≤ k ∧ k < j + (b :: bs).length := by simp; omega
      rw [dif_pos h1, dif_pos h2]
      obtain ⟨d, rfl⟩ : ∃ d, k = j + 1 + d := ⟨k - (j + 1), by omega⟩
      simp [show j + 1 + d - j = d + 1 by omega]
    · rw [dif_neg h1, Vector.getElem_setIfInBounds]
      by_cases h3 : j = k
      · subst h3; simp
      · have h2 : ¬ (j ≤ k ∧ k < j + (b :: bs).length) := by simp; omega
        rw [dif_neg h2, if_neg h3]

/-! ## The call stack -/

theorem push_room {s : State} (w : Word) (h : s.sp.val < 16) :
    push s w = .ok { s with stack := s.stack.set s.sp.val w, sp := ⟨s.sp.val + 1, by omega⟩ } := dif_pos h

theorem push_full {s : State} (w : Word) (h : s.sp.val = 16) : push s w = .error .stackOverflow :=
  dif_neg (by omega)

theorem pop_live {s : State} (h : 0 < s.sp.val) :
    pop s = .ok (s.stack[s.sp.val - 1], { s with sp := ⟨s.sp.val - 1, by omega⟩ }) := dif_pos h

theorem pop_empty {s : State} (h : s.sp.val = 0) : pop s = .error .stackUnderflow := dif_neg (by omega)

/-! ## Keys -/

theorem readKey_exists {s : State} {a : Byte} (h : a.toNat < 16) : readKey s a = .ok s.key[a.toNat] := dif_pos h

theorem readKey_absent {s : State} {a : Byte} (h : 16 ≤ a.toNat) :
    readKey s a = .error (.outOfBounds s.pc .key a.toNat) := dif_neg (Nat.not_lt.mpr h)

/-- `firstKey` is the lowest pressed key. -/
theorem firstKey_eq_some {s : State} {k : Nat} :
    firstKey s = some k ↔ ∃ h : k < 16, s.key[k] = true ∧ ∀ j, ∀ hj : j < k, s.key[j] = false := by
  simp only [firstKey, List.findIdx?_eq_some_iff_getElem, id_eq, Vector.length_toList, Vector.getElem_toList,
    Bool.not_eq_true]

theorem firstKey_eq_none {s : State} : firstKey s = none ↔ ∀ k : Fin 16, s.key[k] = false := by
  rw [firstKey, List.findIdx?_eq_none_iff]
  constructor
  · intro h k
    exact h _ (by simp)
  · intro h b hb
    obtain ⟨k, hk, rfl⟩ := List.getElem_of_mem hb
    have hk' : k < 16 := by simpa using hk
    simpa using h ⟨k, hk'⟩

/-- The wait stage either hands the lowest pressed key to the target register and ends the wait, or does nothing. -/
theorem waitStage_cases (s : State) :
    (∃ k, ∃ _ : firstKey s = some k,
      waitStage s = { s.setV s.wait.target (BitVec.ofNat 8 k) with wait := { s.wait with active := false } }) ∨
    (firstKey s = none ∧ waitStage s = s) := by
  unfold waitStage
  split
  · next k hk => exact .inl ⟨k, hk, rfl⟩
  · next hk => exact .inr ⟨hk, rfl⟩

/-! ## Fetch and tick -/

theorem fetchWord_inside {s : State} (h : s.pc.toNat + 1 < Config.memSize) :
    fetchWord s = .ok (joinBytes (s.byteAt s.pc.toNat) (s.byteAt (s.pc.toNat + 1))) := if_neg (Nat.not_le.mpr h)

theorem fetchWord_outside {s : State} (h : Config.memSize ≤ s.pc.toNat + 1) :
    fetchWord s = .error (memError s s.pc.toNat) := if_pos h

/-- A fetch that succeeds lies in memory and answers the big-endian word at `PC`. -/
theorem fetchWord_ok {s : State} {w : Word} (h : fetchWord s = .ok w) :
    s.pc.toNat + 1 < Config.memSize ∧ w = joinBytes (s.byteAt s.pc.toNat) (s.byteAt (s.pc.toNat + 1)) := by
  by_cases hr : s.pc.toNat + 1 < Config.memSize
  · rw [fetchWord_inside hr] at h
    cases h
    exact ⟨hr, rfl⟩
  · rw [fetchWord_outside (Nat.le_of_not_lt hr)] at h
    cases h

theorem countDown_toNat (t : Byte) : (countDown t).toNat = t.toNat - 1 := by
  unfold countDown
  split
  · next h => simp [h]
  · next h =>
    have h0 : t.toNat ≠ 0 := fun e => h (BitVec.eq_of_toNat_eq (by simpa using e))
    have := t.isLt
    rw [BitVec.toNat_sub]; simp; omega

theorem tick_waiting {s : State} (h : s.wait.active = true) : tick s = s := if_pos h

theorem tick_running {s : State} (h : s.wait.active = false) :
    tick s = { s with dt := countDown s.dt, st := countDown s.st } := by simp [tick, h]

@[simp] theorem tick_mem (s : State) : (tick s).mem = s.mem := by unfold tick; split <;> rfl
@[simp] theorem tick_v (s : State) : (tick s).v = s.v := by unfold tick; split <;> rfl
@[simp] theorem tick_i (s : State) : (tick s).i = s.i := by unfold tick; split <;> rfl
@[simp] theorem tick_pc (s : State) : (tick s).pc = s.pc := by unfold tick; split <;> rfl
@[simp] theorem tick_sp (s : State) : (tick s).sp = s.sp := by unfold tick; split <;> rfl
@[simp] theorem tick_stack (s : State) : (tick s).stack = s.stack := by unfold tick; split <;> rfl
@[simp] theorem tick_fb (s : State) : (tick s).fb = s.fb := by unfold tick; split <;> rfl
@[simp] theorem tick_key (s : State) : (tick s).key = s.key := by unfold tick; split <;> rfl
@[simp] theorem tick_wait (s : State) : (tick s).wait = s.wait := by unfold tick; split <;> rfl
@[simp] theorem tick_draws (s : State) : (tick s).draws = s.draws := by unfold tick; split <;> rfl

theorem finishStep_next {r : Result} {t : State} (h : finishStep r = .next t) : ∃ u, r = .next u ∧ t = tick u := by
  cases r with
  | next u => cases h; exact ⟨u, rfl, rfl⟩
  | fault f => cases h
  | refused a => cases h

theorem finishStep_fault {r : Result} {f : Fault} (h : finishStep r = .fault f) : r = .fault f := by
  cases r with
  | next u => cases h
  | fault g => cases h; rfl
  | refused a => cases h

/-! ## The step, once -/

theorem step_waiting {s : State} (h : s.wait.active = true) : step s = .next (waitStage s) := by
  simp [step, cycle, h]

theorem step_decoded {s : State} {w : Word} {i : Instr} (hw : s.wait.active = false) (hf : fetchWord s = .ok w)
    (hd : decodeWord w = some i) : step s = finishStep (exec i s) := by
  simp [step, cycle, hw, hf, hd]

/-- A step that answers a next state either waits or has run one decoded instruction and ticked. -/
theorem step_next {s t : State} (h : step s = .next t) :
    (s.wait.active = true ∧ t = waitStage s) ∨
    (s.wait.active = false ∧ ∃ w i u, fetchWord s = .ok w ∧ decodeWord w = some i ∧ exec i s = .next u ∧ t = tick u) := by
  cases hw : s.wait.active with
  | true =>
    rw [step_waiting hw] at h
    cases h
    exact .inl ⟨rfl, rfl⟩
  | false =>
    right
    refine ⟨rfl, ?_⟩
    cases hf : fetchWord s with
    | error f => simp [step, cycle, hw, hf, raiseError] at h
    | ok w =>
      cases hd : decodeWord w with
      | none => simp [step, cycle, hw, hf, hd, raiseError] at h
      | some i =>
        rw [step_decoded hw hf hd] at h
        obtain ⟨u, hu, rfl⟩ := finishStep_next h
        exact ⟨w, i, u, rfl, hd, hu, rfl⟩

/-- A step that reports an error fails at the fetch, at the decode, or in its one instruction. -/
theorem step_fault {s : State} {f : Fault} (h : step s = .fault f) :
    s.wait.active = false ∧ (fetchWord s = .error f ∨
      ∃ w, fetchWord s = .ok w ∧ ((decodeWord w = none ∧ f = .decodeError s.pc w) ∨
        ∃ i, decodeWord w = some i ∧ exec i s = .fault f)) := by
  cases hw : s.wait.active with
  | true => rw [step_waiting hw] at h; cases h
  | false =>
    refine ⟨rfl, ?_⟩
    cases hf : fetchWord s with
    | error g => left; simpa [step, cycle, hw, hf, raiseError] using h
    | ok w =>
      right
      refine ⟨w, rfl, ?_⟩
      cases hd : decodeWord w with
      | none => left; simpa [step, cycle, hw, hf, hd, raiseError, eq_comm] using h
      | some i =>
        right
        rw [step_decoded hw hf hd] at h
        exact ⟨i, rfl, finishStep_fault h⟩

/-! ## Pixels -/

theorem pixelIndex_lt (px py : Nat) : pixelIndex px py < Config.nPixels := by
  simp only [pixelIndex, Config.fbHeight, Config.fbWidth, Config.nPixels]; omega

/-- A flip changes the pixel it names and no other. -/
theorem flipPixel_pixel (cv : Canvas) {p : Nat} (hp : p < Config.nPixels) (q : Nat) :
    screenPixel (flipPixel cv p).1 q = (screenPixel cv.1 q ^^ decide (q = p)) := by
  have hp' : p / 64 < 32 := by simp only [Config.nPixels] at hp; omega
  unfold flipPixel screenPixel
  simp only [dif_pos hp']
  split
  · next hq =>
    by_cases hrow : p / 64 = q / 64
    · have e : (q = p) ↔ p % 64 = q % 64 := by omega
      have hb : p % 64 < 64 := Nat.mod_lt _ (by decide)
      simp only [hrow, Vector.getElem_set_self, BitVec.getLsbD_xor, BitVec.getLsbD_twoPow, e]
      simp [eq_comm]
      intro _
      exact hb
    · have hne : q ≠ p := fun h => hrow (by rw [h])
      simp [Vector.getElem_set_ne _ _ hrow, hne]
  · next hq =>
    have hne : q ≠ p := fun h => hq (by omega)
    simp [hne]

@[simp] theorem screenPixel_clear (p : Nat) : screenPixel (Vector.replicate 32 0#64) p = false := by
  unfold screenPixel
  split <;> simp

end Sys2Proof.Machine
end

