-- ==== Sys2Proof/Laws/PerInstr.lean ====
section
/-! SUPPORT. Family RowOfEncoding: each instruction's word matches its own row of the decode table (30_encoding.md R64)
and that row reads the instruction back from it. Which row is the FIRST to match is a statement for the provers. -/

namespace Sys2Proof.Laws.RowOfEncoding

/-- The id of an instruction's row (R64). -/
def rowId : Instr → Nat
  | .cls => 0
  | .ret => 1
  | .sys _ => 2
  | .jp _ => 3
  | .call _ => 4
  | .seImm _ _ => 5
  | .sneImm _ _ => 6
  | .seReg _ _ => 7
  | .ldImm _ _ => 8
  | .addImm _ _ => 9
  | .ldReg _ _ => 10
  | .orReg _ _ => 11
  | .andReg _ _ => 12
  | .xorReg _ _ => 13
  | .addReg _ _ => 14
  | .subReg _ _ => 15
  | .shrReg _ _ => 16
  | .subnReg _ _ => 17
  | .shlReg _ _ => 18
  | .sneReg _ _ => 19
  | .ldI _ => 20
  | .jpV0 _ => 21
  | .rnd _ _ => 22
  | .drw _ _ _ => 23
  | .skp _ => 24
  | .sknp _ => 25
  | .ldVxDt _ => 26
  | .ldVxK _ => 27
  | .ldDtVx _ => 28
  | .ldStVx _ => 29
  | .addI _ => 30
  | .ldF _ => 31
  | .ldB _ => 32
  | .ldMemVx _ => 33
  | .ldVxMem _ => 34

/-- The row of the instruction matches its word and reads the instruction back. -/
def Statement (i : Instr) : Prop :=
  ∃ r, decodeTable[rowId i]? = some r ∧ r.hits (encode i) = true ∧ r.read (encode i) = i

theorem cls : Statement (.cls) :=
  ⟨_, rfl, by decide, rfl⟩

theorem ret : Statement (.ret) :=
  ⟨_, rfl, by decide, rfl⟩

theorem sys (nnn : Addr12) : Statement (.sys nnn) :=
  ⟨_, rfl, (hits_F000 _ _ _).mpr (by have := nnn.isLt; simp [encode, wordNNN_toNat]; omega), by simp [encode]⟩

theorem jp (nnn : Addr12) : Statement (.jp nnn) :=
  ⟨_, rfl, (hits_F000 _ _ _).mpr (by have := nnn.isLt; simp [encode, wordNNN_toNat]; omega), by simp [encode]⟩

theorem call (nnn : Addr12) : Statement (.call nnn) :=
  ⟨_, rfl, (hits_F000 _ _ _).mpr (by have := nnn.isLt; simp [encode, wordNNN_toNat]; omega), by simp [encode]⟩

theorem seImm (x : Reg) (kk : Byte) : Statement (.seImm x kk) :=
  ⟨_, rfl, (hits_F000 _ _ _).mpr (by have := kk.isLt; have := x.isLt; simp [encode, wordXKK_toNat]; omega), by simp [encode]⟩

theorem sneImm (x : Reg) (kk : Byte) : Statement (.sneImm x kk) :=
  ⟨_, rfl, (hits_F000 _ _ _).mpr (by have := kk.isLt; have := x.isLt; simp [encode, wordXKK_toNat]; omega), by simp [encode]⟩

theorem seReg (x y : Reg) : Statement (.seReg x y) :=
  ⟨_, rfl, (hits_F00F _ _ _).mpr (by have := x.isLt; have := y.isLt; simp [encode, wordXYN_toNat]; omega), by simp [encode]⟩

theorem ldImm (x : Reg) (kk : Byte) : Statement (.ldImm x kk) :=
  ⟨_, rfl, (hits_F000 _ _ _).mpr (by have := kk.isLt; have := x.isLt; simp [encode, wordXKK_toNat]; omega), by simp [encode]⟩

theorem addImm (x : Reg) (kk : Byte) : Statement (.addImm x kk) :=
  ⟨_, rfl, (hits_F000 _ _ _).mpr (by have := kk.isLt; have := x.isLt; simp [encode, wordXKK_toNat]; omega), by simp [encode]⟩

theorem ldReg (x y : Reg) : Statement (.ldReg x y) :=
  ⟨_, rfl, (hits_F00F _ _ _).mpr (by have := x.isLt; have := y.isLt; simp [encode, wordXYN_toNat]; omega), by simp [encode]⟩

theorem orReg (x y : Reg) : Statement (.orReg x y) :=
  ⟨_, rfl, (hits_F00F _ _ _).mpr (by have := x.isLt; have := y.isLt; simp [encode, wordXYN_toNat]; omega), by simp [encode]⟩

theorem andReg (x y : Reg) : Statement (.andReg x y) :=
  ⟨_, rfl, (hits_F00F _ _ _).mpr (by have := x.isLt; have := y.isLt; simp [encode, wordXYN_toNat]; omega), by simp [encode]⟩

theorem xorReg (x y : Reg) : Statement (.xorReg x y) :=
  ⟨_, rfl, (hits_F00F _ _ _).mpr (by have := x.isLt; have := y.isLt; simp [encode, wordXYN_toNat]; omega), by simp [encode]⟩

theorem addReg (x y : Reg) : Statement (.addReg x y) :=
  ⟨_, rfl, (hits_F00F _ _ _).mpr (by have := x.isLt; have := y.isLt; simp [encode, wordXYN_toNat]; omega), by simp [encode]⟩

theorem subReg (x y : Reg) : Statement (.subReg x y) :=
  ⟨_, rfl, (hits_F00F _ _ _).mpr (by have := x.isLt; have := y.isLt; simp [encode, wordXYN_toNat]; omega), by simp [encode]⟩

theorem shrReg (x y : Reg) : Statement (.shrReg x y) :=
  ⟨_, rfl, (hits_F00F _ _ _).mpr (by have := x.isLt; have := y.isLt; simp [encode, wordXYN_toNat]; omega), by simp [encode]⟩

theorem subnReg (x y : Reg) : Statement (.subnReg x y) :=
  ⟨_, rfl, (hits_F00F _ _ _).mpr (by have := x.isLt; have := y.isLt; simp [encode, wordXYN_toNat]; omega), by simp [encode]⟩

theorem shlReg (x y : Reg) : Statement (.shlReg x y) :=
  ⟨_, rfl, (hits_F00F _ _ _).mpr (by have := x.isLt; have := y.isLt; simp [encode, wordXYN_toNat]; omega), by simp [encode]⟩

theorem sneReg (x y : Reg) : Statement (.sneReg x y) :=
  ⟨_, rfl, (hits_F00F _ _ _).mpr (by have := x.isLt; have := y.isLt; simp [encode, wordXYN_toNat]; omega), by simp [encode]⟩

theorem ldI (nnn : Addr12) : Statement (.ldI nnn) :=
  ⟨_, rfl, (hits_F000 _ _ _).mpr (by have := nnn.isLt; simp [encode, wordNNN_toNat]; omega), by simp [encode]⟩

theorem jpV0 (nnn : Addr12) : Statement (.jpV0 nnn) :=
  ⟨_, rfl, (hits_F000 _ _ _).mpr (by have := nnn.isLt; simp [encode, wordNNN_toNat]; omega), by simp [encode]⟩

theorem rnd (x : Reg) (kk : Byte) : Statement (.rnd x kk) :=
  ⟨_, rfl, (hits_F000 _ _ _).mpr (by have := kk.isLt; have := x.isLt; simp [encode, wordXKK_toNat]; omega), by simp [encode]⟩

theorem drw (x y : Reg) (n : Nibble) : Statement (.drw x y n) :=
  ⟨_, rfl, (hits_F000 _ _ _).mpr (by have := n.isLt; have := x.isLt; have := y.isLt; simp [encode, wordXYN_toNat]; omega), by simp [encode]⟩

theorem skp (x : Reg) : Statement (.skp x) :=
  ⟨_, rfl, (hits_F0FF _ _ _).mpr (by have := x.isLt; simp [encode, wordXKK_toNat]; omega), by simp [encode]⟩

theorem sknp (x : Reg) : Statement (.sknp x) :=
  ⟨_, rfl, (hits_F0FF _ _ _).mpr (by have := x.isLt; simp [encode, wordXKK_toNat]; omega), by simp [encode]⟩

theorem ldVxDt (x : Reg) : Statement (.ldVxDt x) :=
  ⟨_, rfl, (hits_F0FF _ _ _).mpr (by have := x.isLt; simp [encode, wordXKK_toNat]; omega), by simp [encode]⟩

theorem ldVxK (x : Reg) : Statement (.ldVxK x) :=
  ⟨_, rfl, (hits_F0FF _ _ _).mpr (by have := x.isLt; simp [encode, wordXKK_toNat]; omega), by simp [encode]⟩

theorem ldDtVx (x : Reg) : Statement (.ldDtVx x) :=
  ⟨_, rfl, (hits_F0FF _ _ _).mpr (by have := x.isLt; simp [encode, wordXKK_toNat]; omega), by simp [encode]⟩

theorem ldStVx (x : Reg) : Statement (.ldStVx x) :=
  ⟨_, rfl, (hits_F0FF _ _ _).mpr (by have := x.isLt; simp [encode, wordXKK_toNat]; omega), by simp [encode]⟩

theorem addI (x : Reg) : Statement (.addI x) :=
  ⟨_, rfl, (hits_F0FF _ _ _).mpr (by have := x.isLt; simp [encode, wordXKK_toNat]; omega), by simp [encode]⟩

theorem ldF (x : Reg) : Statement (.ldF x) :=
  ⟨_, rfl, (hits_F0FF _ _ _).mpr (by have := x.isLt; simp [encode, wordXKK_toNat]; omega), by simp [encode]⟩

theorem ldB (x : Reg) : Statement (.ldB x) :=
  ⟨_, rfl, (hits_F0FF _ _ _).mpr (by have := x.isLt; simp [encode, wordXKK_toNat]; omega), by simp [encode]⟩

theorem ldMemVx (x : Reg) : Statement (.ldMemVx x) :=
  ⟨_, rfl, (hits_F0FF _ _ _).mpr (by have := x.isLt; simp [encode, wordXKK_toNat]; omega), by simp [encode]⟩

theorem ldVxMem (x : Reg) : Statement (.ldVxMem x) :=
  ⟨_, rfl, (hits_F0FF _ _ _).mpr (by have := x.isLt; simp [encode, wordXKK_toNat]; omega), by simp [encode]⟩

end Sys2Proof.Laws.RowOfEncoding
end

