-- ==== Sys2Proof/Tests/Slice0.lean ====
section
/-! SUPPORT. Tests: ill-formed terms refused, words written out from the encodings of 30_encoding.md, one step each on
the vectors of 95_test_vectors.md (V<n>), and a witness for the hypotheses of every statement. -/

namespace Sys2Proof.Tests

open Sys2Proof.Machine

/-! ## Helpers -/

/-- The construction state with one instruction word at `PC` (the "start" of 95_test_vectors.md). -/
def start (w : Nat) : State := State.reset.withFetchWord 16 w

/-- Read something off a step or an instruction that answers a next state. -/
def reads {α : Type} (f : State → α) : Result → Option α
  | .next s => some (f s)
  | .fault _ => none
  | .refused _ => none

/-- The error of a step or an instruction that reports one. -/
def faultOf : Result → Option Fault
  | .next _ => none
  | .fault f => some f
  | .refused _ => none

/-- Put bytes into memory. -/
def poke (s : State) (a : Nat) (bs : List Byte) : State := { s with mem := writeCells s.mem a bs }

/-- Press a key. -/
def press (s : State) (k : Reg) : State := { s with key := s.key.set k true }

/-! ## Well-formedness refuses -/

theorem test_wf_refuses_cls_word : ¬ (Instr.sys 0x0E0).WellFormed := by decide
theorem test_wf_refuses_ret_word : ¬ (Instr.sys 0x0EE).WellFormed := by decide
theorem test_wf_takes_other_sys : (Instr.sys 0x0E1).WellFormed := by decide

/-! ## Every constructor's word, written out bit by bit from R61 and R64 -/

theorem test_word_cls : decodeWord 0b0000000011100000#16 = some .cls := by decide
theorem test_word_ret : decodeWord 0b0000000011101110#16 = some .ret := by decide
theorem test_word_sys : decodeWord 0b0000000100100011#16 = some (.sys 0x123) := by decide
theorem test_word_jp : decodeWord 0b0001001000000000#16 = some (.jp 0x200) := by decide
theorem test_word_call : decodeWord 0b0010001000000110#16 = some (.call 0x206) := by decide
theorem test_word_seImm : decodeWord 0b0011001100101010#16 = some (.seImm 3 0x2A) := by decide
theorem test_word_sneImm : decodeWord 0b0100001100101010#16 = some (.sneImm 3 0x2A) := by decide
theorem test_word_seReg : decodeWord 0b0101000100100000#16 = some (.seReg 1 2) := by decide
theorem test_word_ldImm : decodeWord 0b0110101001011100#16 = some (.ldImm 10 0x5C) := by decide
theorem test_word_addImm : decodeWord 0b0111001000000001#16 = some (.addImm 2 1) := by decide
theorem test_word_ldReg : decodeWord 0b1000000000010000#16 = some (.ldReg 0 1) := by decide
theorem test_word_orReg : decodeWord 0b1000000000010001#16 = some (.orReg 0 1) := by decide
theorem test_word_andReg : decodeWord 0b1000000000010010#16 = some (.andReg 0 1) := by decide
theorem test_word_xorReg : decodeWord 0b1000000000010011#16 = some (.xorReg 0 1) := by decide
theorem test_word_addReg : decodeWord 0b1000000011110100#16 = some (.addReg 0 15) := by decide
theorem test_word_subReg : decodeWord 0b1000111100010101#16 = some (.subReg 15 1) := by decide
theorem test_word_shrReg : decodeWord 0b1000000000010110#16 = some (.shrReg 0 1) := by decide
theorem test_word_subnReg : decodeWord 0b1000000000010111#16 = some (.subnReg 0 1) := by decide
theorem test_word_shlReg : decodeWord 0b1000111100001110#16 = some (.shlReg 15 0) := by decide
theorem test_word_sneReg : decodeWord 0b1001000100100000#16 = some (.sneReg 1 2) := by decide
theorem test_word_ldI : decodeWord 0b1010001100000000#16 = some (.ldI 0x300) := by decide
theorem test_word_jpV0 : decodeWord 0b1011111111111111#16 = some (.jpV0 0xFFF) := by decide
theorem test_word_rnd : decodeWord 0b1100000000001111#16 = some (.rnd 0 0x0F) := by decide
theorem test_word_drw : decodeWord 0b1101000000010010#16 = some (.drw 0 1 2) := by decide
theorem test_word_skp : decodeWord 0b1110001010011110#16 = some (.skp 2) := by decide
theorem test_word_sknp : decodeWord 0b1110001010100001#16 = some (.sknp 2) := by decide
theorem test_word_ldVxDt : decodeWord 0b1111001100000111#16 = some (.ldVxDt 3) := by decide
theorem test_word_ldVxK : decodeWord 0b1111001100001010#16 = some (.ldVxK 3) := by decide
theorem test_word_ldDtVx : decodeWord 0b1111001000010101#16 = some (.ldDtVx 2) := by decide
theorem test_word_ldStVx : decodeWord 0b1111001000011000#16 = some (.ldStVx 2) := by decide
theorem test_word_addI : decodeWord 0b1111000100011110#16 = some (.addI 1) := by decide
theorem test_word_ldF : decodeWord 0b1111010000101001#16 = some (.ldF 4) := by decide
theorem test_word_ldB : decodeWord 0b1111010100110011#16 = some (.ldB 5) := by decide
theorem test_word_ldMemVx : decodeWord 0b1111000101010101#16 = some (.ldMemVx 1) := by decide
theorem test_word_ldVxMem : decodeWord 0b1111001001100101#16 = some (.ldVxMem 2) := by decide

theorem test_decode_reads_high_byte_first : decode [0x6A, 0x01, 0xFF] = .ok (.ldImm 10 1, [0xFF]) := by decide
theorem test_decode_refuses_one_byte : decode [0x6A] = .error .truncated := by decide
theorem test_decode_refuses_5121 : decode [0x51, 0x21] = .error (.noMatch 0x5121) := by decide
theorem test_table_word : decodeTableWord 16 0xD012 = some (.drw 0 1 2) := by decide
theorem test_encode_drw : encode (.drw 0 1 2) = 0xD012 := by decide

/-! ## Decode and fetch -/

theorem test_V4_bad_word : faultOf (step (start 0x5121)) = some (.decodeError 0x200 0x5121) := by decide
theorem test_V10_fetch_at_the_end :
    faultOf (step { State.reset with pc := 0xFFF }) = some (.outOfBounds 0xFFF .mem 0x1000) := by decide
theorem test_V13_odd_pc :
    reads (fun t => (t.getV 0, t.pc)) (step { poke State.reset 0x201 [0x60, 0x07] with pc := 0x201 })
      = some (7, 0x203) := by decide
theorem test_V14_no_tick_on_error :
    engineStep { start 0x5121 with dt := 2, st := 1 }
      = .ok ({ start 0x5121 with dt := 2, st := 1 }, .error (.decodeError 0x200 0x5121)) := by rfl

/-! ## Control flow -/

theorem test_V15_sys_ticks :
    reads (fun t => (t.pc, t.dt, t.st)) (step { start 0x0000 with dt := 2, st := 1 }) = some (0x202, 1, 0) := by decide
theorem test_V16_jp : reads (·.pc) (step (start 0x1FFF)) = some 0xFFF := by decide
theorem test_V18_ret :
    reads (fun t => (t.sp, t.pc)) (step { start 0x00EE with sp := 1, stack := Vector.replicate 16 0x202 })
      = some (0, 0x202) := by decide
theorem test_V2_ret_empty : faultOf (step (start 0x00EE)) = some .stackUnderflow := by decide
theorem test_V19_call_full : faultOf (step { start 0x2300 with sp := 16 }) = some .stackOverflow := by decide
theorem test_V19a_call :
    reads (fun t => (t.stack[15], t.sp, t.pc)) (step { start 0x2300 with sp := 15 }) = some (0x202, 16, 0x300) := by
  decide
theorem test_V19c_jpV0 : reads (·.pc) (step ((start 0xBFFF).setV 0 0xFF)) = some 0x10FE := by decide
theorem test_V19d_se_taken : reads (·.pc) (step ((start 0x332A).setV 3 0x2A)) = some 0x204 := by decide
theorem test_V19e_se_not_taken : reads (·.pc) (step ((start 0x332A).setV 3 0x2B)) = some 0x202 := by decide
theorem test_V19f_sne : reads (·.pc) (step ((start 0x432A).setV 3 0x2B)) = some 0x204 := by decide
theorem test_V19g_sne : reads (·.pc) (step (start 0x4000)) = some 0x202 := by decide
theorem test_V19i_se_same_register : reads (·.pc) (step (start 0x5110)) = some 0x204 := by decide
theorem test_R108_sne_registers :
    reads (·.pc) (step (((start 0x9120).setV 1 7).setV 2 8)) = some 0x204 := by decide
theorem test_V19j_sne_same_register : reads (·.pc) (step (start 0x9110)) = some 0x202 := by decide

/-! ## Register ALU -/

theorem test_V20_ld : reads (·.getV 10) (step (start 0x6A5C)) = some 0x5C := by decide
theorem test_V21_add_imm_no_flag :
    reads (fun t => (t.getV 2, t.getV 15)) (step ((start 0x7201).setV 2 0xFF)) = some (0, 0) := by decide
theorem test_V22_add_imm_vf : reads (·.getV 15) (step ((start 0x7FFF).setV 15 1)) = some 0 := by decide
theorem test_V23_add_carry :
    reads (fun t => (t.getV 0, t.getV 15)) (step (((start 0x8014).setV 0 0xFF).setV 1 1)) = some (0, 1) := by decide
theorem test_V27_add_flag_wins :
    reads (·.getV 15) (step (((start 0x8F14).setV 15 0xFF).setV 1 1)) = some 1 := by decide
theorem test_V29_sub_borrow :
    reads (fun t => (t.getV 0, t.getV 15)) (step (((start 0x8015).setV 0 3).setV 1 5)) = some (0xFE, 0) := by decide
theorem test_V30_sub_equal :
    reads (fun t => (t.getV 0, t.getV 15)) (step (((start 0x8015).setV 0 5).setV 1 5)) = some (0, 1) := by decide
theorem test_V32_subn :
    reads (fun t => (t.getV 0, t.getV 15)) (step (((start 0x8017).setV 0 3).setV 1 5)) = some (2, 1) := by decide
theorem test_V33_subn_borrow :
    reads (fun t => (t.getV 0, t.getV 15)) (step (((start 0x8017).setV 0 5).setV 1 3)) = some (0xFE, 0) := by decide
theorem test_V35_shr_ignores_y :
    reads (fun t => (t.getV 0, t.getV 15, t.getV 1)) (step (((start 0x8016).setV 0 0xFE).setV 1 0x77))
      = some (0x7F, 0, 0x77) := by decide
theorem test_V36_shr_result_wins : reads (·.getV 15) (step ((start 0x8F06).setV 15 2)) = some 1 := by decide
theorem test_V37_shl :
    reads (fun t => (t.getV 0, t.getV 15)) (step ((start 0x800E).setV 0 0x81)) = some (2, 1) := by decide
theorem test_V39_shl_result_wins : reads (·.getV 15) (step ((start 0x8F0E).setV 15 0x81)) = some 2 := by decide
theorem test_V40_or_keeps_vf :
    reads (fun t => (t.getV 0, t.getV 15)) (step ((((start 0x8011).setV 0 0xF0).setV 1 0x0C).setV 15 0x55))
      = some (0xFC, 0x55) := by decide
theorem test_V41_and : reads (·.getV 0) (step (((start 0x8012).setV 0 0xF0).setV 1 0x3C)) = some 0x30 := by decide
theorem test_R125_xor : reads (·.getV 0) (step (((start 0x8013).setV 0 0xF0).setV 1 0x3C)) = some 0xCC := by decide
theorem test_V43_ld_reg : reads (·.getV 0) (step ((start 0x8010).setV 1 0x33)) = some 0x33 := by decide
theorem test_R131_rnd_counts_a_draw : reads (fun t => (t.draws, t.pc)) (step (start 0xC00F)) = some (1, 0x202) := by
  decide

/-! ## Index register and memory -/

theorem test_V45_ld_i : reads (·.i) (step (start 0xA300)) = some 0x300 := by decide
theorem test_V45a_add_i_wraps :
    reads (fun t => (t.i, t.getV 15)) (step { (start 0xF11E).setV 1 1 with i := 0xFFF }) = some (0, 1) := by decide
theorem test_V45b_add_i_clears_vf :
    reads (fun t => (t.i, t.getV 15)) (step { ((start 0xF11E).setV 1 1).setV 15 1 with i := 0xFFE })
      = some (0xFFF, 0) := by decide
theorem test_V46_glyph : reads (·.i) (step ((start 0xF429).setV 4 0x0A)) = some 0x032 := by decide
theorem test_V46b_glyph_not_masked : reads (·.i) (step ((start 0xF029).setV 0 0xFF)) = some 0x4FB := by decide
theorem test_V48_bcd :
    reads (fun t => (t.byteAt 0x300, t.byteAt 0x301, t.byteAt 0x302)) (step { (start 0xF033).setV 0 0xFF with i := 0x300 })
      = some (2, 5, 5) := by decide
theorem test_V48b_bcd_outside :
    faultOf (step { (start 0xF033).setV 0 1 with i := 0xFFE }) = some (.outOfBounds 0x200 .mem 0x1000) := by decide
theorem test_V49_store :
    reads (fun t => (t.byteAt 0x400, t.byteAt 0x401, t.byteAt 0x402, t.i))
      (step { ((start 0xF155).setV 0 0x11).setV 1 0x22 with i := 0x400 }) = some (0x11, 0x22, 0, 0x400) := by decide
theorem test_V49b_store_outside :
    faultOf (step { start 0xFF55 with i := 0xFF1 }) = some (.outOfBounds 0x200 .mem 0x1000) := by decide
theorem test_R145_load :
    reads (fun t => (t.getV 0, t.getV 1, t.getV 2, t.getV 3)) (step { poke (start 0xF265) 0x300 [1, 2, 3, 4] with i := 0x300 })
      = some (1, 2, 3, 0) := by decide
theorem test_V50b_load_outside :
    faultOf (step { start 0xF165 with i := 0xFFF }) = some (.outOfBounds 0x200 .mem 0x1000) := by decide

/-! ## Display -/

theorem test_V51_cls :
    reads (fun t => (t.pixel 0, t.pixel 2047, t.getV 15))
      (step { (start 0x00E0).setV 15 7 with fb := Vector.replicate 32 (BitVec.allOnes 64) }) = some (false, false, 7) := by
  decide
theorem test_V54_draw_wraps :
    reads (fun t => (t.pixel 63, t.pixel 0, t.pixel 6, t.pixel 7, t.pixel 64, t.getV 15))
      (step { poke ((start 0xD011).setV 0 0x3F) 0x300 [0xFF] with i := 0x300 })
      = some (true, true, true, false, false, 0) := by decide
theorem test_V53_draw_collides :
    reads (fun t => (t.pixel 131, t.pixel 132, t.getV 15))
      (step { poke (((start 0xD011).setV 0 3).setV 1 2) 0x210 [0xC0] with
        i := 0x210, fb := (Vector.replicate 32 0).set 2 0b11000 }) = some (false, false, 1) := by decide

/-! ## Keys and timers -/

theorem test_V61_skp : reads (·.pc) (step (press ((start 0xE29E).setV 2 7) 7)) = some 0x204 := by decide
theorem test_V65_skp_no_such_key :
    faultOf (step ((start 0xE29E).setV 2 0x10)) = some (.outOfBounds 0x200 .key 0x10) := by decide
theorem test_V63_sknp : reads (·.pc) (step (press ((start 0xE2A1).setV 2 7) 7)) = some 0x202 := by decide
theorem test_V64_sknp : reads (·.pc) (step ((start 0xE2A1).setV 2 7)) = some 0x204 := by decide
theorem test_V66_read_delay :
    reads (fun t => (t.getV 3, t.dt)) (step { start 0xF307 with dt := 0x10 }) = some (0x10, 0x0F) := by decide
theorem test_V67_set_delay : reads (·.dt) (step ((start 0xF215).setV 2 5)) = some 4 := by decide
theorem test_V69_set_sound_one : reads soundActive (step ((start 0xF218).setV 2 1)) = some false := by decide
theorem test_V70_set_sound :
    reads (fun t => (t.st, soundActive t)) (step ((start 0xF218).setV 2 0x20)) = some (0x1F, true) := by decide
theorem test_V71_wait_no_tick :
    reads (fun t => (t.pc, t.wait, t.dt)) (step { press (start 0xF30A) 5 with dt := 3 })
      = some (0x202, { active := true, target := 3 }, 3) := by decide
theorem test_V74_lowest_key :
    reads (fun t => (t.getV 3, t.wait.active, t.pc))
      (step { press (press State.reset 7) 2 with wait := { active := true, target := 3 } }) = some (2, false, 0x200) := by
  decide

/-! ## Host transactions -/

theorem test_V78_load_nothing : reads (·.mem) (.next (poke State.reset 0x200 [])) = some [] := by decide
theorem test_V79_set_key_16 : setKey State.reset 16 true = .error .keyIndexError := by rfl
theorem test_V81_read_pixel_2048 : readPixel State.reset 2048 = .error .pixelIndexError := by rfl
theorem test_R232_load_keeps_pc :
    (loadProgram { State.reset with pc := 0x400 } [0x12, 0x00]).toOption.map (fun p => (p.1.pc, p.1.byteAt 0x200, p.2))
      = some (0x400, 0x12, 2) := by decide
theorem test_font_glyph_F : (State.reset.byteAt 0x4B, State.reset.byteAt 0x4F, State.reset.byteAt 0x50) = (0xF0, 0x80, 0) := by
  decide
theorem test_memory_stays_canonical : Memory.wf (writeCells [] 0x300 [0, 1, 0, 2]) ∧ writeCells [(0x300, 1)] 0x300 [0] = [] := by
  decide

/-! ## Witnesses: the hypotheses of every statement can be met, clause by clause, at the edges of their ranges -/

/-- Does an outcome answer a next state. -/
def completes (r : Result) : Bool := (reads id r).isSome

theorem next_of_completes {r : Result} (h : completes r = true) : ∃ t, r = .next t := by
  cases r with
  | next t => exact ⟨t, rfl⟩
  | fault f => cases h
  | refused a => cases h

/-- The construction state with `PC` and the word there as given. -/
def startAt (pc : Word) (w : Nat) : State := ({ State.reset with pc := pc }).withFetchWord 16 w

/-- The construction state with this many live stack entries, each 0x202. -/
def stacked (n : Fin 17) : State := { State.reset with sp := n, stack := Vector.replicate 16 0x202 }

/-- The construction state with the wait for `VF` active. -/
def waiting : State := { State.reset with wait := { active := true, target := 15 } }

/-- The construction state with `I` as given. -/
def indexed (i : Word) : State := { State.reset with i := i }

/-- A screen with every pixel set. -/
def white : State := { State.reset with fb := Vector.replicate 32 (BitVec.allOnes 64) }

theorem witness_DecodeOfEncodeIsTheInstruction :
    (Instr.sys 0xFFF).WellFormed ∧ (Instr.drw 15 15 15).WellFormed ∧ (Instr.cls).WellFormed := by decide
theorem witness_EncodeOfDecodeIsTheWord : decodeWord 0xD12F#16 = some (.drw 1 2 15) := by decide
theorem witness_OnlyTheSpecialFormsOverlap_rows :
    ∃ r q, decodeTable[1]? = some r ∧ decodeTable[2]? = some q ∧ r.hits 0x00EE#16 = true ∧ q.hits 0x00EE#16 = true :=
  ⟨_, _, rfl, rfl, by decide, by decide⟩
theorem witness_OnlyTheSpecialFormsOverlap_words :
    (0x0FFF#16).toNat < 0x1000 ∧ 0x0FFF#16 ≠ 0x00E0#16 ∧ 0x0FFF#16 ≠ 0x00EE#16 := by decide
theorem witness_StepRunsTheDecodedInstruction :
    (startAt 0xFFE 0x6A5C).wait.active = false ∧ (startAt 0xFFE 0x6A5C).pc.toNat + 1 < 4096 ∧
      decode [(startAt 0xFFE 0x6A5C).byteAt (startAt 0xFFE 0x6A5C).pc.toNat,
        (startAt 0xFFE 0x6A5C).byteAt ((startAt 0xFFE 0x6A5C).pc.toNat + 1)] = .ok (.ldImm 10 0x5C, []) := by decide
theorem witness_WaitingStepTakesTheLowestKey_key :
    (press waiting 15).wait.active = true ∧ (press waiting 15).key[(15 : Fin 16)] = true ∧
      ∀ j : Fin 16, j < 15 → (press waiting 15).key[j] = false := by decide
theorem witness_WaitingStepTakesTheLowestKey_none :
    waiting.wait.active = true ∧ ∀ k : Fin 16, waiting.key[k] = false := by decide
theorem witness_FetchReadsABigEndianWordInMemory :
    ({ State.reset with pc := 0xFFE } : State).pc.toNat + 1 < 4096 ∧
      ({ State.reset with pc := 0xFFF } : State).wait.active = false ∧
      4096 ≤ ({ State.reset with pc := 0xFFF } : State).pc.toNat + 1 := by decide
theorem witness_UndecodableWordIsReported :
    (startAt 0xFFE 0x5121).wait.active = false ∧ fetchWord (startAt 0xFFE 0x5121) = .ok 0x5121#16 ∧
      decodeWord 0x5121#16 = none := by decide

/-- What the statements about a completed step ask of a state and a word. -/
theorem witness_PcGoesWhereTheTableSays_ret :
    ∃ t, fetchWord ((stacked 16).withFetchWord 16 0x00EE) = .ok 0x00EE#16 ∧ decodeWord 0x00EE#16 = some .ret ∧
      step ((stacked 16).withFetchWord 16 0x00EE) = .next t ∧ (15 : Fin 16).val + 1 = (stacked 16).sp.val :=
  (next_of_completes (r := step ((stacked 16).withFetchWord 16 0x00EE)) (by decide)).imp
    fun _ h => ⟨by decide, by decide, h, by decide⟩
theorem witness_PcGoesWhereTheTableSays_others :
    ([0x1FFF, 0x2FFF, 0xBFFF, 0x3000, 0x4000, 0x5000, 0x9010, 0xE09E, 0xE0A1, 0x6000].all fun w =>
      completes (step (start w)) && (start w).wait.active == false && (decodeWord (BitVec.ofNat 16 w)).isSome) = true := by
  decide
theorem witness_TimersTickAfterTheInstruction :
    completes (step waiting) = true ∧ waiting.wait.active = true ∧
      completes (step (start 0xFF0A)) = true ∧ (start 0xFF0A).wait.active = false ∧
      decodeWord 0xFF0A#16 = some (.ldVxK 15) ∧ completes (step (start 0xFF15)) = true ∧
      decodeWord 0xFF15#16 = some (.ldDtVx 15) := by decide

theorem witness_ErrorsAreExactlyTheListedOnes :
    faultOf (step { State.reset with pc := 0xFFFF }) = some (.outOfBounds 0xFFFF .mem 0xFFFF) ∧
      faultOf (step (start 0xFFFF)) = some (.decodeError 0x200 0xFFFF) ∧
      faultOf (step (start 0x00EE)) = listedError (start 0x00EE) .ret ∧
      faultOf (step ((stacked 16).withFetchWord 16 0x2300)) = listedError (stacked 16) (.call 0x300) ∧
      faultOf (step ((indexed 0xFF2).withFetchWord 16 0xD00F)) = listedError (indexed 0xFF2) (.drw 0 0 15) := by decide
theorem witness_AnErrorStepChangesNothingAndRepeats :
    step (start 0x5121) = .fault (.decodeError 0x200 0x5121) := by rfl
theorem witness_OnlyLoadProgramClearsAnError :
    step (start 0x00EE) = .fault .stackUnderflow ∧
      ∀ c ∈ [HostCall.setKey 15 true, .step, .readPixel 2048, .soundActive], ∀ bytes, c ≠ .loadProgram bytes :=
  ⟨by rfl, by simp⟩

theorem witness_ConstructionTakesAnyFont : 80 ≤ 80 := by decide
theorem witness_EveryStepKeepsTheInvariant :
    BoundaryInv { (stacked 16).withFetchWord 16 0xF01E with i := 0xFFF } ∧
      ∃ t, step { (stacked 16).withFetchWord 16 0xF01E with i := 0xFFF } = .next t :=
  ⟨⟨by decide, by decide, by decide, by decide⟩, next_of_completes (by decide)⟩
theorem witness_EveryTransactionKeepsTheInvariant :
    BoundaryInv (stacked 16) ∧ (transact (stacked 16) (.loadProgram [0x60, 0x01])).toOption.isSome = true ∧
      (transact (stacked 16) (.setKey 15 true)).toOption.isSome = true ∧
      (transact { stacked 16 with i := 0xFFF } .step).toOption.isSome = true :=
  ⟨⟨by decide, by decide, by decide, by decide⟩, by decide, by decide, by decide⟩
theorem witness_EveryReachableStateMeetsTheInvariant :
    (drive (construct (Vector.replicate 80 0)) [.loadProgram [0xF0, 0x0A], .step, .setKey 15 true, .step]).toOption.map
      (·.2) = some [.loaded 2, .status .ok, .done, .status .ok] := by decide +kernel

theorem witness_OnlyDestinationsAndFlagsChangeRegisters :
    (∃ t, exec (.addReg 0 1) State.reset = .next t) ∧ mayWriteReg 14 (.addReg 0 1) = false := ⟨⟨_, rfl⟩, by decide⟩
theorem witness_EachPartHasOnlyItsListedWriters : ∃ t, exec (.ldB 0) (indexed 0xFFD) = .next t :=
  next_of_completes (by decide)

theorem witness_NoOpOnlyAdvances :
    (0x0ED#12 ≠ 0x0E0#12 ∧ 0x0ED#12 ≠ 0x0EE#12) ∧ (start 0x00ED).wait.active = false ∧
      fetchWord (start 0x00ED) = .ok (encode (.sys 0x0ED)) := by decide
theorem witness_ReturnPopsTheNewestEntry :
    (0 : Fin 16).val + 1 = (stacked 1).sp.val ∧ (15 : Fin 16).val + 1 = (stacked 16).sp.val ∧ (stacked 0).sp.val = 0 := by
  decide
theorem witness_JumpSetsThePcExactly :
    State.reset.wait.active = false ∧ 0xFFE#12 ≠ 0xFFF#12 ∧ fetchWord (startAt 0xFFE 0x1FFE) = .ok (encode (.jp 0xFFE)) ∧
      (startAt 0xFFE 0x1FFE).pc.toNat = (0xFFE : Addr12).toNat := by decide
theorem witness_CallPushesAndJumps :
    (0 : Fin 16).val = (stacked 0).sp.val ∧ (15 : Fin 16).val = (stacked 15).sp.val ∧ (14 : Fin 16) ≠ 15 ∧
      (stacked 16).sp.val = 16 := by decide
theorem witness_CallThenReturnComesBack :
    ∃ t : State, exec (.call 0x300) (stacked 15) = .next t ∧ ({ t with pc := 0x302 } : State).sp = t.sp ∧
      ∀ k : Fin 16, k.val < t.sp.val → ({ t with pc := 0x302 } : State).stack[k] = t.stack[k] :=
  ⟨_, rfl, rfl, fun _ _ => rfl⟩
theorem witness_RegisterSkipsMoveThePc :
    State.reset.getV 15 = 0 ∧ State.reset.getV 15 ≠ 1 ∧ (1 : Nibble) ≠ 0 ∧ (15 : Nibble) ≠ 0 := by decide
theorem witness_registers_other_than_x_and_vf : (14 : Reg) ≠ 15 ∧ (0 : Reg) ≠ 14 ∧ (0 : Reg) ≠ 15 := by decide

theorem witness_DecimalDigitsAreStoredAtI :
    (indexed 0xFFD).i.toNat + 2 < 4096 ∧ 4096 ≤ (indexed 0xFFE).i.toNat + 2 := by decide
theorem witness_RegistersAreStoredAtI_and_RegistersAreLoadedFromI :
    (indexed 0xFF0).i.toNat + (15 : Reg).val < 4096 ∧ 4096 ≤ (indexed 0xFF1).i.toNat + (15 : Reg).val ∧
      (indexed 0xFFF).i.toNat + (0 : Reg).val < 4096 ∧ (14 : Reg) ≤ 14 ∧ (14 : Reg) < 15 := by decide
theorem witness_StoredRegistersAreLoadedBack :
    ∃ t : State, exec (.ldMemVx 15) (indexed 0xFF0) = .next t ∧ (t.setV 15 1).i = (indexed 0xFF0).i ∧
      ∀ a, (t.setV 15 1).byteAt a = t.byteAt a :=
  (next_of_completes (r := exec (.ldMemVx 15) (indexed 0xFF0)) (by decide)).imp fun _ h =>
    ⟨h, by obtain ⟨-, rfl⟩ := storeAtI_next (s := indexed 0xFF0) (bs := registerRun (indexed 0xFF0) 15) h; rfl, fun _ => rfl⟩
theorem witness_StoredWordIsFetchedNext :
    ∃ t : State, exec (.ldMemVx 15) { indexed 0xFEF with pc := 0xFFB } = .next t ∧ (15 : Reg).val = (14 : Reg).val + 1 ∧
      (15 : Reg) ≤ 15 ∧ t.pc.toNat = ({ indexed 0xFEF with pc := 0xFFB } : State).i.toNat + (14 : Reg).val :=
  (next_of_completes (r := exec (.ldMemVx 15) { indexed 0xFEF with pc := 0xFFB }) (by decide)).imp fun _ h =>
    ⟨h, by decide, by decide, by
      obtain ⟨-, rfl⟩ := storeAtI_next (s := { indexed 0xFEF with pc := 0xFFB }) (bs := registerRun { indexed 0xFEF with pc := 0xFFB } 15) h
      decide⟩

theorem witness_DrawFlipsExactlyTheSprite_bounds :
    (indexed 0xFF1).i.toNat + (15 : Nibble).toNat - 1 < 4096 ∧ (15 : Nibble) ≠ 0 ∧
      4096 ≤ (indexed 0xFF2).i.toNat + (15 : Nibble).toNat - 1 := by decide
theorem witness_DrawFlipsExactlyTheSprite_no_rows :
    ((0 : Nibble) = 0 ∨ (indexed 0xFFFF).i.toNat + (0 : Nibble).toNat - 1 < 4096) ∧
      ∀ p, ¬ SpriteCovers (indexed 0xFFFF) 0 0 0 p :=
  ⟨.inl rfl, fun _ ⟨_, _, hr, _⟩ => absurd hr (Nat.not_lt_zero _)⟩
theorem witness_DrawFlipsExactlyTheSprite_covered :
    SpriteCovers white 0 0 1 0 ∧ white.pixel 0 = true := ⟨⟨0, 0, by decide, by decide, by decide, by decide⟩, by decide⟩
theorem witness_DrawFlipsExactlyTheSprite_not_covered : ¬ SpriteCovers white 0 0 1 8 := by
  rintro ⟨r, c, hr, hc, -, h⟩
  simp only [show (white.getV 0).toNat = 0 by decide] at h
  simp only [show (1 : Nibble).toNat = 1 by decide] at hr
  omega
theorem witness_DrawFlipsExactlyTheSprite_no_collision :
    ∀ p, SpriteCovers State.reset 0 0 1 p → State.reset.pixel p = false := fun p _ => screenPixel_clear p
theorem witness_DrawingTwiceRestoresTheScreen :
    ∃ t, exec (.drw 0 0 1) State.reset = .next t ∧ t.byteAt 0 = State.reset.byteAt 0 ∧ t.i = State.reset.i ∧
      t.getV 0 = State.reset.getV 0 ∧ SpriteCovers State.reset 0 0 1 0 ∧ State.reset.pixel 0 = false :=
  ⟨_, rfl, by decide, by decide, by decide, ⟨0, 0, by decide, by decide, by decide, by decide⟩, by decide⟩
theorem witness_DrawingTwiceRestoresTheScreen_all_set :
    ∀ p, SpriteCovers white 0 0 1 p → white.pixel p = true := by
  rintro p ⟨r, c, hr, hc, -, rfl⟩
  simp only [show (white.getV 0).toNat = 0 by decide]
  simp only [show (1 : Nibble).toNat = 1 by decide] at hr
  obtain rfl : r = 0 := by omega
  exact (show ∀ d : Fin 8, white.pixel ((0 + 0) % 32 * 64 + (0 + d.val) % 64) = true by decide) ⟨c, hc⟩

theorem witness_KeySkipsReadTheLatch :
    ((State.reset.setV 0 15).getV 0).toNat = (15 : Fin 16).val ∧ 15 < ((State.reset.setV 0 16).getV 0).toNat := by decide
theorem witness_WaitForKeySetsTheLatch :
    (start 0xFF0A).wait.active = false ∧ fetchWord (start 0xFF0A) = .ok (encode (.ldVxK 15)) := by decide
theorem witness_DelayTimerIsReadBeforeTheTick :
    (start 0xFF07).wait.active = false ∧ fetchWord (start 0xFF07) = .ok (encode (.ldVxDt 15)) := by decide
theorem witness_TimersAreSetAndTickInTheSameStep :
    (start 0xFF15).wait.active = false ∧ fetchWord (start 0xFF15) = .ok (encode (.ldDtVx 15)) ∧
      fetchWord (start 0xFF18) = .ok (encode (.ldStVx 15)) := by decide

theorem witness_LoadProgramCopiesTheBytes :
    (List.replicate 3584 (0 : Byte)).length ≤ 3584 ∧ 3584 < (List.replicate 3585 (0 : Byte)).length := by
  simp only [List.length_replicate]
  decide
theorem witness_SetKeyWritesOneLatch : 15 < 16 ∧ 16 ≤ 16 ∧ (0 : Fin 16).val ≠ 15 := by decide
theorem witness_ReadPortsChangeNothing : 2047 < 2048 ∧ 2048 ≤ 2048 := by decide
theorem witness_DeadStackEntriesAreUnobservable :
    Alike (stacked 0) { stacked 0 with stack := Vector.replicate 16 0xFFF, wait := { active := false, target := 15 } } := by
  constructor <;> first | rfl | exact fun k hk => absurd hk (Nat.not_lt_zero _) | exact fun h => by cases h
theorem witness_SelfLoopOnlyTicks : AtSelfLoop (start 0x1200) := ⟨by decide, 0x200, by decide, by decide⟩

end Sys2Proof.Tests
end

section
/-! PROOFS. The row that decodes a word: but for row `0NNN`, a word that matches a row matches no row before it
(30_encoding.md R63 to R65), so the decoder answers what that row reads. -/

namespace Sys2Proof

/-- One word matches two rows only where both patterns agree on the bits that both masks fix. -/
theorem Row.patterns_agree_of_hits {p q : Row} {w : Word} (hp : p.hits w = true) (hq : q.hits w = true) :
    p.pattern &&& q.mask = q.pattern &&& p.mask := by
  simp only [Row.hits, beq_iff_eq] at hp hq
  rw [← hp, ← hq, BitVec.and_assoc, BitVec.and_assoc, BitVec.and_comm p.mask]

/-- Every row but `0NNN`, the one of pattern 0, disagrees with each row before it on a bit that both masks fix. -/
theorem decodeTable_earlier_rows_disagree :
    decodeTable.Pairwise fun p q => q.pattern ≠ 0 → p.pattern &&& q.mask ≠ q.pattern &&& p.mask := by
  decide

/-- A row other than `0NNN` that matches a word is the first one that does. -/
theorem decodeWord_eq_some_read {r : Row} {w : Word} (hmem : r ∈ decodeTable) (hpat : r.pattern ≠ 0)
    (hit : r.hits w = true) : decodeWord w = some (r.read w) := by
  obtain ⟨earlier, later, htable⟩ := List.append_of_mem hmem
  have hfirst : ∀ p ∈ earlier, p.hits w = false := by
    intro p hp
    have hpair := decodeTable_earlier_rows_disagree
    rw [htable] at hpair
    have hne := (List.pairwise_append.mp hpair).2.2 p hp r List.mem_cons_self hpat
    exact Bool.eq_false_iff.mpr fun h => hne (Row.patterns_agree_of_hits h hit)
  have hfind : decodeTable.find? (·.hits w) = some r :=
    List.find?_eq_some_iff_append.mpr ⟨hit, earlier, later, htable, fun p hp => by simp [hfirst p hp]⟩
  rw [decodeWord, hfind, Option.map_some]

end Sys2Proof

namespace Sys2Proof.Machine

/-- An instruction whose row is not `0NNN` is encoded as its row of the decode table says. -/
theorem encodedAs_of_row {i : Instr} {r : Row} (hrow : Laws.RowOfEncoding.Statement i)
    (hr : decodeTable[Laws.RowOfEncoding.rowId i]? = some r) (hpat : r.pattern ≠ 0) :
    EncodedAs i r.mask r.pattern := by
  obtain ⟨q, hq, hit, hread⟩ := hrow
  obtain rfl : q = r := Option.some.inj (hq.symm.trans hr)
  refine ⟨beq_iff_eq.mp hit, ?_⟩
  rw [decodeWord_eq_some_read (List.mem_of_getElem? hr) hpat hit, hread]

end Sys2Proof.Machine
end

section
/-! PROOFS. The instructions that write one register and no flag (42_alu.md R120 to R122). -/

namespace Sys2Proof.Machine

/-- The sum of two bytes is their unbounded sum modulo 256 (42_alu.md R132). -/
theorem addBytes_toNat (a b : Byte) : (addBytes a b).toNat = (a.toNat + b.toNat) % 256 := BitVec.toNat_ofNat _ _

/-- A register write leaves every part but the registers and the `PC` alone. -/
theorem sameBut_advance_setV (s : State) (x : Reg) (b : Byte) : SameBut [.v, .pc] s (advance (s.setV x b)) := by
  intro p hp
  cases p with
  | v | pc => simp at hp
  | mem | fb | key => exact fun _ => rfl
  | stack => exact ⟨rfl, fun _ => rfl⟩
  | i | dt | st | wait | draws => rfl

/-- What `writeReg` does: its register takes the byte, the others stay, `PC` advances, and nothing else changes. -/
theorem writeReg_next (x : Reg) (b : Byte) (s : State) :
    ∃ t, writeReg x b s = .next t ∧ t.getV x = b ∧ (∀ r, r ≠ x → t.getV r = s.getV r) ∧
      t.pc = s.pc + 2 ∧ SameBut [.v, .pc] s t :=
  ⟨advance (s.setV x b), rfl, by simp, fun r hr => by simp [State.getV_setV_ne hr], rfl, sameBut_advance_setV s x b⟩

theorem exec_ldImm (x : Reg) (kk : Byte) (s : State) : exec (.ldImm x kk) s = writeReg x kk s := rfl

theorem exec_ldReg (x y : Reg) (s : State) : exec (.ldReg x y) s = writeReg x (s.getV y) s := rfl

theorem exec_addImm (x : Reg) (kk : Byte) (s : State) :
    exec (.addImm x kk) s = writeReg x (addBytes (s.getV x) kk) s := rfl

/-- Settles O29: both loads are one register write, of the immediate and of the source register. -/
theorem loadsWriteTheirDestination : Obligations.LoadsWriteTheirDestination := by
  intro x y kk s
  rw [exec_ldImm, exec_ldReg]
  exact ⟨⟨encodedAs_of_row (Laws.RowOfEncoding.ldImm x kk) rfl (by decide), writeReg_next x kk s⟩,
    ⟨encodedAs_of_row (Laws.RowOfEncoding.ldReg x y) rfl (by decide), writeReg_next x (s.getV y) s⟩⟩

/-- Settles O30: the one register write is of the sum modulo 256, so `VF` is kept as any other register is. -/
theorem addImmediateSetsNoFlag : Obligations.AddImmediateSetsNoFlag := by
  intro x kk s
  obtain ⟨t, hnext, hx, hframe⟩ := writeReg_next x (addBytes (s.getV x) kk) s
  refine ⟨encodedAs_of_row (Laws.RowOfEncoding.addImm x kk) rfl (by decide), t, ?_, ?_, hframe⟩
  · rw [exec_addImm, hnext]
  · rw [hx, addBytes_toNat]

end Sys2Proof.Machine
end

section
/-! PROOFS. The instructions that write the index register and no flag (43_index_memory.md R140). -/

namespace Sys2Proof.Machine

/-- Zero-extension keeps the value (30_encoding.md R62). -/
theorem zext12_toNat (nnn : Addr12) : (zext12 nnn).toNat = nnn.toNat := BitVec.toNat_setWidth_of_le (by decide)

/-- A write of the index register leaves every part but `I` and the `PC` alone. -/
theorem sameBut_advance_setI (s : State) (w : Word) : SameBut [.i, .pc] s (advance { s with i := w }) := by
  intro p hp
  cases p with
  | i | pc => simp at hp
  | mem | v | fb | key => exact fun _ => rfl
  | stack => exact ⟨rfl, fun _ => rfl⟩
  | dt | st | wait | draws => rfl

theorem exec_ldI (nnn : Addr12) (s : State) : exec (.ldI nnn) s = .next (advance { s with i := zext12 nnn }) := rfl

/-- Settles O36: the load is one unchecked write of the index register, of the zero-extended address. -/
theorem setIndexWritesI : Obligations.SetIndexWritesI := by
  intro nnn s
  exact ⟨encodedAs_of_row (Laws.RowOfEncoding.ldI nnn) rfl (by decide), _, exec_ldI nnn s, zext12_toNat nnn, rfl,
    sameBut_advance_setI s (zext12 nnn)⟩

end Sys2Proof.Machine
end

section
/-! PROOFS. The instruction that clears the screen (44_display.md R160). -/

namespace Sys2Proof.Machine

/-- A write of the framebuffer leaves every part but the framebuffer and the `PC` alone. -/
theorem sameBut_advance_setFb (s : State) (fb : Screen) : SameBut [.fb, .pc] s (advance { s with fb := fb }) := by
  intro p hp
  cases p with
  | fb | pc => simp at hp
  | mem | v | key => exact fun _ => rfl
  | stack => exact ⟨rfl, fun _ => rfl⟩
  | i | dt | st | wait | draws => rfl

theorem exec_cls (s : State) : exec .cls s = .next (advance { s with fb := Vector.replicate 32 0 }) := rfl

/-- Settles O44: the one write is of a screen whose rows are all zero, which has no set pixel. -/
theorem clearUnsetsEveryPixel : Obligations.ClearUnsetsEveryPixel := by
  refine ⟨encodedAs_of_row Laws.RowOfEncoding.cls rfl (by decide), fun s => ?_⟩
  exact ⟨_, exec_cls s, screenPixel_clear, rfl, sameBut_advance_setFb s _⟩

end Sys2Proof.Machine
end

section
/-! PROOFS. Decoding and encoding are inverse to each other (30_encoding.md R60 to R66): every row reads an instruction
out of a word that is encoded as that word. -/

namespace Sys2Proof

/-! ## A word is built again from its fields (R61) -/

theorem wordNNN_nnnField {op : Nibble} {w : Word} (hop : w.toNat / 4096 = op.toNat) :
    wordNNN op (nnnField w) = w := by
  apply BitVec.eq_of_toNat_eq
  rw [wordNNN_toNat, nnnField_toNat]
  omega

theorem wordXKK_xField {op : Nibble} {kk : Byte} {w : Word} (hop : w.toNat / 4096 = op.toNat)
    (hkk : w.toNat % 256 = kk.toNat) : wordXKK op (xField w) kk = w := by
  apply BitVec.eq_of_toNat_eq
  rw [wordXKK_toNat, xField_val]
  omega

theorem wordXYN_xField_yField {op n : Nibble} {w : Word} (hop : w.toNat / 4096 = op.toNat)
    (hn : w.toNat % 16 = n.toNat) : wordXYN op (xField w) (yField w) n = w := by
  apply BitVec.eq_of_toNat_eq
  rw [wordXYN_toNat, xField_val, yField_val]
  omega

/-! ## What a row reads out of a word it matches is encoded as that word -/

/-- The row reads out of every word it matches an instruction that is encoded as that word. -/
def Row.ReadsBack (r : Row) : Prop := ∀ w, r.hits w = true → encode (r.read w) = w

/-- A row that fixes the opcode nibble `op` and takes one address. -/
theorem readsBack_nnn (op : Nibble) {p : Word} (c : Addr12 → Instr) (hp : p.toNat = op.toNat * 4096)
    (hc : ∀ nnn, encode (c nnn) = wordNNN op nnn) : Row.ReadsBack ⟨0xF000#16, p, fun w => c (nnnField w)⟩ := by
  intro w hit
  have hw := (hits_F000 _ _ _).mp hit
  exact (hc _).trans (wordNNN_nnnField (by omega))

/-- A row that fixes the opcode nibble `op` and takes a register and an immediate. -/
theorem readsBack_xkk (op : Nibble) {p : Word} (c : Reg → Byte → Instr) (hp : p.toNat = op.toNat * 4096)
    (hc : ∀ x kk, encode (c x kk) = wordXKK op x kk) :
    Row.ReadsBack ⟨0xF000#16, p, fun w => c (xField w) (kkField w)⟩ := by
  intro w hit
  have hw := (hits_F000 _ _ _).mp hit
  exact (hc _ _).trans (wordXKK_xField (by omega) (kkField_toNat w).symm)

/-- A row that fixes the opcode nibble `op` and the low byte `kk` and takes a register. -/
theorem readsBack_x (op : Nibble) (kk : Byte) {p : Word} (c : Reg → Instr)
    (hp : p.toNat = op.toNat * 4096 + kk.toNat) (hc : ∀ x, encode (c x) = wordXKK op x kk) :
    Row.ReadsBack ⟨0xF0FF#16, p, fun w => c (xField w)⟩ := by
  intro w hit
  have hw := (hits_F0FF _ _ _).mp hit
  exact (hc _).trans (wordXKK_xField (by omega) (by omega))

/-- A row that fixes the opcode nibble `op` and the low nibble `n` and takes two registers. -/
theorem readsBack_xy (op n : Nibble) {p : Word} (c : Reg → Reg → Instr)
    (hp : p.toNat = op.toNat * 4096 + n.toNat) (hc : ∀ x y, encode (c x y) = wordXYN op x y n) :
    Row.ReadsBack ⟨0xF00F#16, p, fun w => c (xField w) (yField w)⟩ := by
  intro w hit
  have hw := (hits_F00F _ _ _).mp hit
  exact (hc _ _).trans (wordXYN_xField_yField (by omega) (by omega))

/-- A row that fixes the opcode nibble `op` and takes two registers and a nibble. -/
theorem readsBack_xyn (op : Nibble) {p : Word} (c : Reg → Reg → Nibble → Instr) (hp : p.toNat = op.toNat * 4096)
    (hc : ∀ x y n, encode (c x y n) = wordXYN op x y n) :
    Row.ReadsBack ⟨0xF000#16, p, fun w => c (xField w) (yField w) (nField w)⟩ := by
  intro w hit
  have hw := (hits_F000 _ _ _).mp hit
  exact (hc _ _ _).trans (wordXYN_xField_yField (by omega) (nField_toNat w).symm)

/-- A row that fixes the whole word. -/
theorem readsBack_fixed {p : Word} {i : Instr} (hi : encode i = p) : Row.ReadsBack ⟨0xFFFF#16, p, fun _ => i⟩ :=
  fun _ hit => hi.trans (BitVec.eq_of_toNat_eq ((hits_FFFF _ _ _).mp hit).symm)

theorem rowsLow_readsBack : ∀ r ∈ rowsLow, r.ReadsBack := by
  simp only [rowsLow, List.forall_mem_cons]
  exact ⟨readsBack_fixed rfl, readsBack_fixed rfl, readsBack_nnn 0x0 .sys rfl fun _ => rfl,
    readsBack_nnn 0x1 .jp rfl fun _ => rfl, readsBack_nnn 0x2 .call rfl fun _ => rfl,
    readsBack_xkk 0x3 .seImm rfl fun _ _ => rfl, readsBack_xkk 0x4 .sneImm rfl fun _ _ => rfl,
    readsBack_xy 0x5 0x0 .seReg rfl fun _ _ => rfl, readsBack_xkk 0x6 .ldImm rfl fun _ _ => rfl,
    readsBack_xkk 0x7 .addImm rfl fun _ _ => rfl, by simp⟩

theorem rowsEight_readsBack : ∀ r ∈ rowsEight, r.ReadsBack := by
  simp only [rowsEight, List.forall_mem_cons]
  exact ⟨readsBack_xy 0x8 0x0 .ldReg rfl fun _ _ => rfl, readsBack_xy 0x8 0x1 .orReg rfl fun _ _ => rfl,
    readsBack_xy 0x8 0x2 .andReg rfl fun _ _ => rfl, readsBack_xy 0x8 0x3 .xorReg rfl fun _ _ => rfl,
    readsBack_xy 0x8 0x4 .addReg rfl fun _ _ => rfl, readsBack_xy 0x8 0x5 .subReg rfl fun _ _ => rfl,
    readsBack_xy 0x8 0x6 .shrReg rfl fun _ _ => rfl, readsBack_xy 0x8 0x7 .subnReg rfl fun _ _ => rfl,
    readsBack_xy 0x8 0xE .shlReg rfl fun _ _ => rfl, by simp⟩

theorem rowsMid_readsBack : ∀ r ∈ rowsMid, r.ReadsBack := by
  simp only [rowsMid, List.forall_mem_cons]
  exact ⟨readsBack_xy 0x9 0x0 .sneReg rfl fun _ _ => rfl, readsBack_nnn 0xA .ldI rfl fun _ => rfl,
    readsBack_nnn 0xB .jpV0 rfl fun _ => rfl, readsBack_xkk 0xC .rnd rfl fun _ _ => rfl,
    readsBack_xyn 0xD .drw rfl fun _ _ _ => rfl, readsBack_x 0xE 0x9E .skp rfl fun _ => rfl,
    readsBack_x 0xE 0xA1 .sknp rfl fun _ => rfl, by simp⟩

theorem rowsF_readsBack : ∀ r ∈ rowsF, r.ReadsBack := by
  simp only [rowsF, List.forall_mem_cons]
  exact ⟨readsBack_x 0xF 0x07 .ldVxDt rfl fun _ => rfl, readsBack_x 0xF 0x0A .ldVxK rfl fun _ => rfl,
    readsBack_x 0xF 0x15 .ldDtVx rfl fun _ => rfl, readsBack_x 0xF 0x18 .ldStVx rfl fun _ => rfl,
    readsBack_x 0xF 0x1E .addI rfl fun _ => rfl, readsBack_x 0xF 0x29 .ldF rfl fun _ => rfl,
    readsBack_x 0xF 0x33 .ldB rfl fun _ => rfl, readsBack_x 0xF 0x55 .ldMemVx rfl fun _ => rfl,
    readsBack_x 0xF 0x65 .ldVxMem rfl fun _ => rfl, by simp⟩

theorem decodeTable_readsBack {r : Row} (h : r ∈ decodeTable) : r.ReadsBack := by
  simp only [decodeTable, List.mem_append] at h
  obtain ((h | h) | h) | h := h
  · exact rowsLow_readsBack r h
  · exact rowsEight_readsBack r h
  · exact rowsMid_readsBack r h
  · exact rowsF_readsBack r h

/-- A word that decodes is the word its instruction encodes to (R63). -/
theorem encode_of_decodeWord {w : Word} {i : Instr} (h : decodeWord w = some i) : encode i = w := by
  obtain ⟨r, hfind, rfl⟩ := Option.map_eq_some_iff.mp h
  exact decodeTable_readsBack (List.mem_of_find?_eq_some hfind) w (List.find?_some (p := fun r : Row => r.hits w) hfind)

/-! ## Row 0NNN and the two special forms before it (R65) -/

/-- Every word below 0x1000 but the two special ones is matched by row `0NNN` first (R65). -/
theorem decodeWord_sys {w : Word} (hlow : w.toNat < 0x1000) (hcls : w ≠ 0x00E0#16) (hret : w ≠ 0x00EE#16) :
    decodeWord w = some (.sys (nnnField w)) := by
  have hearlier : ∀ p ∈ decodeTable.take 2, p.hits w = false := by
    intro p hp
    obtain rfl | rfl : p = ⟨0xFFFF#16, 0x00E0#16, fun _ => .cls⟩ ∨ p = ⟨0xFFFF#16, 0x00EE#16, fun _ => .ret⟩ := by
      simpa [decodeTable, rowsLow] using hp
    · exact Bool.eq_false_iff.mpr fun h => hcls (BitVec.eq_of_toNat_eq ((hits_FFFF _ _ _).mp h))
    · exact Bool.eq_false_iff.mpr fun h => hret (BitVec.eq_of_toNat_eq ((hits_FFFF _ _ _).mp h))
  have hit : Row.hits ⟨0xF000#16, 0x0000#16, fun w => .sys (nnnField w)⟩ w = true :=
    (hits_F000 _ _ _).mpr (by rw [BitVec.toNat_ofNat]; omega)
  have hfind : decodeTable.find? (·.hits w) = some ⟨0xF000#16, 0x0000#16, fun w => .sys (nnnField w)⟩ :=
    List.find?_eq_some_iff_append.mpr
      ⟨hit, decodeTable.take 2, decodeTable.drop 3, rfl, fun p hp => by simp [hearlier p hp]⟩
  rw [decodeWord, hfind, Option.map_some]

/-- The only row of pattern 0 is row 2, that of `0NNN`. -/
theorem row_eq_two_of_pattern_zero {k : Nat} {r : Row} (hr : decodeTable[k]? = some r) (hpat : r.pattern = 0) :
    k = 2 := by
  obtain ⟨hk, rfl⟩ := List.getElem?_eq_some_iff.mp hr
  exact (show ∀ j : Fin 35, decodeTable[j].pattern = 0 → j.val = 2 by decide) ⟨k, hk⟩ hpat

/-- A row before `0NNN` matches its own special word only. -/
theorem special_of_hits {w : Word} {j : Nat} {r : Row} (hr : decodeTable[j]? = some r) (hj : j < 2)
    (hit : r.hits w = true) : (j = 0 ∧ w = 0x00E0#16) ∨ (j = 1 ∧ w = 0x00EE#16) := by
  obtain rfl | rfl : j = 0 ∨ j = 1 := by omega
  · obtain rfl := Option.some.inj hr
    exact .inl ⟨rfl, BitVec.eq_of_toNat_eq ((hits_FFFF _ _ _).mp hit)⟩
  · obtain rfl := Option.some.inj hr
    exact .inr ⟨rfl, BitVec.eq_of_toNat_eq ((hits_FFFF _ _ _).mp hit)⟩

/-! ## Each instruction's word decodes to it -/

/-- Every instruction's word matches its own row, which reads the instruction back (R64). -/
theorem rowOfEncoding (i : Instr) : Laws.RowOfEncoding.Statement i := by
  cases i with
  | cls => exact Laws.RowOfEncoding.cls
  | ret => exact Laws.RowOfEncoding.ret
  | sys nnn => exact Laws.RowOfEncoding.sys nnn
  | jp nnn => exact Laws.RowOfEncoding.jp nnn
  | call nnn => exact Laws.RowOfEncoding.call nnn
  | seImm x kk => exact Laws.RowOfEncoding.seImm x kk
  | sneImm x kk => exact Laws.RowOfEncoding.sneImm x kk
  | seReg x y => exact Laws.RowOfEncoding.seReg x y
  | ldImm x kk => exact Laws.RowOfEncoding.ldImm x kk
  | addImm x kk => exact Laws.RowOfEncoding.addImm x kk
  | ldReg x y => exact Laws.RowOfEncoding.ldReg x y
  | orReg x y => exact Laws.RowOfEncoding.orReg x y
  | andReg x y => exact Laws.RowOfEncoding.andReg x y
  | xorReg x y => exact Laws.RowOfEncoding.xorReg x y
  | addReg x y => exact Laws.RowOfEncoding.addReg x y
  | subReg x y => exact Laws.RowOfEncoding.subReg x y
  | shrReg x y => exact Laws.RowOfEncoding.shrReg x y
  | subnReg x y => exact Laws.RowOfEncoding.subnReg x y
  | shlReg x y => exact Laws.RowOfEncoding.shlReg x y
  | sneReg x y => exact Laws.RowOfEncoding.sneReg x y
  | ldI nnn => exact Laws.RowOfEncoding.ldI nnn
  | jpV0 nnn => exact Laws.RowOfEncoding.jpV0 nnn
  | rnd x kk => exact Laws.RowOfEncoding.rnd x kk
  | drw x y n => exact Laws.RowOfEncoding.drw x y n
  | skp x => exact Laws.RowOfEncoding.skp x
  | sknp x => exact Laws.RowOfEncoding.sknp x
  | ldVxDt x => exact Laws.RowOfEncoding.ldVxDt x
  | ldVxK x => exact Laws.RowOfEncoding.ldVxK x
  | ldDtVx x => exact Laws.RowOfEncoding.ldDtVx x
  | ldStVx x => exact Laws.RowOfEncoding.ldStVx x
  | addI x => exact Laws.RowOfEncoding.addI x
  | ldF x => exact Laws.RowOfEncoding.ldF x
  | ldB x => exact Laws.RowOfEncoding.ldB x
  | ldMemVx x => exact Laws.RowOfEncoding.ldMemVx x
  | ldVxMem x => exact Laws.RowOfEncoding.ldVxMem x

/-- `0NNN` is the only instruction of row 2. -/
theorem eq_sys_of_rowId {i : Instr} (h : Laws.RowOfEncoding.rowId i = 2) : ∃ nnn, i = .sys nnn := by
  cases i with
  | sys nnn => exact ⟨nnn, rfl⟩
  | _ => simp [Laws.RowOfEncoding.rowId] at h

theorem sys_wellFormed {nnn : Addr12} : (Instr.sys nnn).WellFormed ↔ nnn ≠ 0x0E0#12 ∧ nnn ≠ 0x0EE#12 := by
  simp [Instr.WellFormed, Instr.wf]

theorem decodeWord_encode_sys {nnn : Addr12} (h : (Instr.sys nnn).WellFormed) :
    decodeWord (encode (.sys nnn)) = some (.sys nnn) := by
  obtain ⟨hcls, hret⟩ := sys_wellFormed.mp h
  have hfield : nnnField (encode (.sys nnn)) = nnn := nnnField_wordNNN 0x0 nnn
  have hlow : (encode (.sys nnn)).toNat < 0x1000 := by
    rw [encode, wordNNN_toNat]
    have := nnn.isLt
    simp
    omega
  rw [decodeWord_sys hlow (fun e => hcls (hfield.symm.trans (by rw [e]; rfl)))
    (fun e => hret (hfield.symm.trans (by rw [e]; rfl))), hfield]

/-- The word of a well-formed instruction decodes to it (R64, R65). -/
theorem decodeWord_encode {i : Instr} (h : i.WellFormed) : decodeWord (encode i) = some i := by
  obtain ⟨r, hr, hit, hread⟩ := rowOfEncoding i
  by_cases hpat : r.pattern = 0
  · obtain ⟨nnn, rfl⟩ := eq_sys_of_rowId (row_eq_two_of_pattern_zero hr hpat)
    exact decodeWord_encode_sys h
  · rw [decodeWord_eq_some_read (List.mem_of_getElem? hr) hpat hit, hread]

/-- No word decodes to `0NNN` where `00E0` or `00EE` comes first (R65). -/
theorem wellFormed_of_decodeWord {w : Word} {i : Instr} (h : decodeWord w = some i) : i.WellFormed := by
  have hw := encode_of_decodeWord h
  cases i with
  | sys nnn =>
    refine sys_wellFormed.mpr ⟨?_, ?_⟩
    · rintro rfl
      rw [← hw, show decodeWord (encode (.sys 0x0E0#12)) = some .cls by decide] at h
      cases h
    · rintro rfl
      rw [← hw, show decodeWord (encode (.sys 0x0EE#12)) = some .ret by decide] at h
      cases h
  | _ => rfl

/-! ## The words that match no row (R67) -/

/-- A word matches no row exactly if each row's test on its nibbles fails. -/
theorem decodeWord_eq_none_iff {w : Word} : decodeWord w = none ↔ ∀ r ∈ decodeTable, ¬ r.hits w = true := by
  rw [decodeWord, Option.map_eq_none_iff, List.find?_eq_none]

/-- Settles O1: the decoder joins the two bytes to the word, whose first matching row is the instruction's own. -/
theorem decodeOfEncodeIsTheInstruction : Obligations.DecodeOfEncodeIsTheInstruction := by
  intro i rest hwf
  rw [encodeBytes, List.cons_append, List.cons_append, List.nil_append, decode_cons_cons, joinBytes_high_low,
    decodeWord_encode hwf]

/-- Settles O2: each row reads its operands out of all the bits it leaves free. -/
theorem encodeOfDecodeIsTheWord : Obligations.EncodeOfDecodeIsTheWord :=
  fun _ _ h => ⟨encode_of_decodeWord h, wellFormed_of_decodeWord h⟩

/-- Settles O3: two rows that match one word agree on the bits both fix, which leaves only row `0NNN` as the later
one. -/
theorem onlyTheSpecialFormsOverlap : Obligations.OnlyTheSpecialFormsOverlap := by
  refine ⟨?_, by decide, by decide, fun w => decodeWord_sys⟩
  intro w j k r q hjk hr hq hitr hitq
  have hk : k = 2 := by
    by_contra hk
    obtain ⟨hj', hrj⟩ := List.getElem?_eq_some_iff.mp hr
    obtain ⟨hk', hqk⟩ := List.getElem?_eq_some_iff.mp hq
    have hne := List.pairwise_iff_getElem.mp decodeTable_earlier_rows_disagree j k hj' hk' hjk
    rw [hrj, hqk] at hne
    exact hne (fun hpat => hk (row_eq_two_of_pattern_zero hq hpat)) (Row.patterns_agree_of_hits hitr hitq)
  exact ⟨hk, special_of_hits hr (by omega) hitr⟩

/-- Settles O4: row by row, the test is on the opcode nibble and on the low nibble or the low byte, so the words left
over are told apart by these three numbers. -/
theorem invalidWordsAreExactlyTheListedOnes : Obligations.InvalidWordsAreExactlyTheListedOnes := by
  intro w
  have hop : w.toNat / 4096 < 16 := by have := w.isLt; omega
  have hn : w.toNat % 16 < 16 := by omega
  have hword : ∀ c, w.toNat = c ↔ w.toNat / 4096 = c / 4096 ∧ w.toNat % 4096 = c % 4096 := by omega
  have hnib : ∀ c, w.toNat / 4096 * 4096 + w.toNat % 16 = c ↔ w.toNat / 4096 = c / 4096 ∧ w.toNat % 16 = c % 4096 := by
    omega
  have hbyte : ∀ c, w.toNat / 4096 * 4096 + w.toNat % 256 = c ↔
      w.toNat / 4096 = c / 4096 ∧ w.toNat % 256 = c % 4096 := by omega
  rw [decodeWord_eq_none_iff]
  simp only [decodeTable, rowsLow, rowsEight, rowsMid, rowsF, List.forall_mem_append, List.forall_mem_cons, hits_FFFF,
    hits_F000, hits_F00F, hits_F0FF, BitVec.toNat_ofNat]
  simp only [hword (_ % _), hnib, hbyte]
  generalize w.toNat / 4096 = op at hop ⊢
  generalize w.toNat % 16 = n at hn ⊢
  clear hword hnib hbyte
  interval_cases op <;> simp
  -- family 8, whose rows test the low nibble
  interval_cases n <;> decide

/-- Settles O5: the decoder run on the fourteen words. -/
theorem wordsOfTheSpecDecode : Obligations.WordsOfTheSpecDecode := by
  unfold Obligations.WordsOfTheSpecDecode
  decide

end Sys2Proof
end

section
/-! PROOFS. Frames by fields: two states with the same field read the same there. -/

namespace Sys2Proof.Machine

/-- Each field of the state is the same in both, but for those of the listed parts. `SameBut` is what can be read of
this. Between a state and a record update of it every field is settled by the update's own `simp` lemmas. -/
structure SameFields (parts : List Part) (s t : State) : Prop where
  mem : .mem ∈ parts ∨ t.mem = s.mem := by simp [mayWritePart]
  v : .v ∈ parts ∨ t.v = s.v := by simp [mayWritePart]
  i : .i ∈ parts ∨ t.i = s.i := by simp [mayWritePart]
  pc : .pc ∈ parts ∨ t.pc = s.pc := by simp [mayWritePart]
  sp : .stack ∈ parts ∨ t.sp = s.sp := by simp [mayWritePart]
  stack : .stack ∈ parts ∨ t.stack = s.stack := by simp [mayWritePart]
  dt : .dt ∈ parts ∨ t.dt = s.dt := by simp [mayWritePart]
  st : .st ∈ parts ∨ t.st = s.st := by simp [mayWritePart]
  fb : .fb ∈ parts ∨ t.fb = s.fb := by simp [mayWritePart]
  key : .key ∈ parts ∨ t.key = s.key := by simp [mayWritePart]
  wait : .wait ∈ parts ∨ t.wait = s.wait := by simp [mayWritePart]
  draws : .draws ∈ parts ∨ t.draws = s.draws := by simp [mayWritePart]

theorem SameFields.sameBut {parts : List Part} {s t : State} (h : SameFields parts s t) : SameBut parts s t := by
  intro p hp
  cases p with
  | mem => exact fun a => congrArg (readCell · a) (h.mem.resolve_left hp)
  | v => exact fun r => congrArg (fun v : Vector Byte 16 => v[r]) (h.v.resolve_left hp)
  | i => exact h.i.resolve_left hp
  | pc => exact h.pc.resolve_left hp
  | stack =>
    exact ⟨h.sp.resolve_left hp, fun k => congrArg (fun v : Vector Word 16 => v[k]) (h.stack.resolve_left hp)⟩
  | dt => exact h.dt.resolve_left hp
  | st => exact h.st.resolve_left hp
  | fb => exact fun p => congrArg (screenPixel · p) (h.fb.resolve_left hp)
  | key => exact fun k => congrArg (fun v : Vector Bool 16 => v[k]) (h.key.resolve_left hp)
  | wait => exact h.wait.resolve_left hp
  | draws => exact h.draws.resolve_left hp

/-- The tick writes the two timers only. -/
theorem sameFields_tick (s : State) : SameFields [.dt, .st] s (tick s) := {}

/-- A waiting step writes the registers and the wait latch only. -/
theorem sameFields_waitStage (s : State) : SameFields [.v, .wait] s (waitStage s) := by
  obtain ⟨k, -, h⟩ | ⟨-, h⟩ := waitStage_cases s
  · rw [h]
    exact {}
  · rw [h]
    exact {}

end Sys2Proof.Machine
end

section
/-! PROOFS. The execute stage of the instructions that make a check: what they answer when it holds, what they report
when it fails, and what a next state says about it (41_control_flow.md, 43_index_memory.md, 44_display.md,
45_keys_timers.md). The arms of the other instructions are plain updates, true by rfl. -/

namespace Sys2Proof.Machine

/-- An outcome that is a next state if a check holds and an error if it fails tells that the check held. -/
theorem check_of_next {P : Prop} {u : P → State} {f : Fault} {r : Result} {t : State} (hyes : ∀ p, r = .next (u p))
    (hno : ¬ P → r = .fault f) (h : r = .next t) : ∃ p, t = u p := by
  by_cases p : P
  · exact ⟨p, Host.Outcome.next.inj (h.symm.trans (hyes p))⟩
  · cases h.symm.trans (hno p)

/-! ## The call stack (R101, R103) -/

theorem exec_ret_live {s : State} (h : 0 < s.sp.val) :
    exec .ret s = .next (jumpTo { s with sp := ⟨s.sp.val - 1, by omega⟩ } s.stack[s.sp.val - 1]) := by
  simp only [exec, execRet, pop_live h]

theorem exec_ret_empty {s : State} (h : s.sp.val = 0) : exec .ret s = .fault .stackUnderflow := by
  simp only [exec, execRet, pop_empty h, raiseError]

theorem exec_ret_next {s t : State} (h : exec .ret s = .next t) :
    ∃ _ : 0 < s.sp.val, t = jumpTo { s with sp := ⟨s.sp.val - 1, by omega⟩ } s.stack[s.sp.val - 1] :=
  check_of_next exec_ret_live (fun hsp => exec_ret_empty (Nat.eq_zero_of_not_pos hsp)) h

theorem exec_call_room {s : State} (nnn : Addr12) (h : s.sp.val < 16) :
    exec (.call nnn) s = .next (jumpTo
      { s with stack := s.stack.set s.sp.val (s.pc + 2), sp := ⟨s.sp.val + 1, by omega⟩ } (zext12 nnn)) := by
  simp only [exec, execCall, push_room _ h]

theorem exec_call_full {s : State} (nnn : Addr12) (h : s.sp.val = 16) :
    exec (.call nnn) s = .fault .stackOverflow := by
  simp only [exec, execCall, push_full _ h, raiseError]

theorem exec_call_next {s t : State} {nnn : Addr12} (h : exec (.call nnn) s = .next t) :
    ∃ hsp : s.sp.val < 16, t = jumpTo
      { s with stack := s.stack.set s.sp.val (s.pc + 2), sp := ⟨s.sp.val + 1, by omega⟩ } (zext12 nnn) :=
  check_of_next (exec_call_room nnn) (fun hsp => exec_call_full nnn (by omega)) h

/-! ## The key skips (R170, R171) -/

theorem exec_skp_exists {s : State} {x : Reg} (h : (s.getV x).toNat < 16) :
    exec (.skp x) s = .next (skipIf s.key[(s.getV x).toNat] s) := by
  simp only [exec, execSkp, readKey_exists h]

theorem exec_skp_absent {s : State} {x : Reg} (h : 16 ≤ (s.getV x).toNat) :
    exec (.skp x) s = .fault (.outOfBounds s.pc .key (s.getV x).toNat) := by
  simp only [exec, execSkp, readKey_absent h, raiseError]

theorem exec_skp_next {s t : State} {x : Reg} (h : exec (.skp x) s = .next t) :
    ∃ hx : (s.getV x).toNat < 16, t = skipIf s.key[(s.getV x).toNat] s :=
  check_of_next exec_skp_exists (fun hx => exec_skp_absent (Nat.le_of_not_lt hx)) h

theorem exec_sknp_exists {s : State} {x : Reg} (h : (s.getV x).toNat < 16) :
    exec (.sknp x) s = .next (skipIf (!s.key[(s.getV x).toNat]) s) := by
  simp only [exec, execSknp, readKey_exists h]

theorem exec_sknp_absent {s : State} {x : Reg} (h : 16 ≤ (s.getV x).toNat) :
    exec (.sknp x) s = .fault (.outOfBounds s.pc .key (s.getV x).toNat) := by
  simp only [exec, execSknp, readKey_absent h, raiseError]

theorem exec_sknp_next {s t : State} {x : Reg} (h : exec (.sknp x) s = .next t) :
    ∃ hx : (s.getV x).toNat < 16, t = skipIf (!s.key[(s.getV x).toNat]) s :=
  check_of_next exec_sknp_exists (fun hx => exec_sknp_absent (Nat.le_of_not_lt hx)) h

/-! ## The memory transfers (R143 to R145) -/

theorem exec_ldB (x : Reg) (s : State) : exec (.ldB x) s = storeAtI (decimalDigits (s.getV x)) s := rfl

theorem exec_ldMemVx (x : Reg) (s : State) : exec (.ldMemVx x) s = storeAtI (registerRun s x) s := rfl

theorem exec_ldMemVx_inside {s : State} {x : Reg} (h : s.i.toNat + x.val < 4096) :
    exec (.ldMemVx x) s = .next (advance { s with mem := writeCells s.mem s.i.toNat (registerRun s x) }) := by
  rw [exec_ldMemVx, storeAtI_inside]
  rwa [registerRun_length]

theorem exec_ldMemVx_outside {s : State} {x : Reg} (h : 4096 ≤ s.i.toNat + x.val) :
    exec (.ldMemVx x) s = .fault (memError s s.i.toNat) := by
  rw [exec_ldMemVx, storeAtI_outside]
  rwa [registerRun_length]

theorem exec_ldVxMem_inside {s : State} {x : Reg} (h : s.i.toNat + x.val < 4096) :
    exec (.ldVxMem x) s = .next (advance { s with v := loadRun s.v 0 (readCells s.mem s.i.toNat (x.val + 1)) }) := by
  simp only [exec, execLdVxMem, memRead_inside (show s.i.toNat + (x.val + 1) - 1 < Config.memSize from h)]

theorem exec_ldVxMem_outside {s : State} {x : Reg} (h : 4096 ≤ s.i.toNat + x.val) :
    exec (.ldVxMem x) s = .fault (memError s s.i.toNat) := by
  simp only [exec, execLdVxMem, memRead_outside (show Config.memSize ≤ s.i.toNat + (x.val + 1) - 1 from h), raiseError]

theorem exec_ldVxMem_next {s t : State} {x : Reg} (h : exec (.ldVxMem x) s = .next t) :
    ∃ _ : s.i.toNat + x.val < 4096,
      t = advance { s with v := loadRun s.v 0 (readCells s.mem s.i.toNat (x.val + 1)) } :=
  check_of_next exec_ldVxMem_inside (fun hi => exec_ldVxMem_outside (Nat.le_of_not_lt hi)) h

/-! ## Drawing (R161) -/

/-- What `DXYN` draws: its sprite's rows, read from memory at `I` (none for `n = 0`), on the screen. -/
def drawn (x y : Reg) (n : Nibble) (s : State) : Canvas :=
  drawRows spriteMsbLeft (s.getV x).toNat (s.getV y).toNat (readCells s.mem s.i.toNat n.toNat) (s.fb, false)

theorem readSprite_inside {s : State} {n : Nibble} (h : n = 0 ∨ s.i.toNat + n.toNat - 1 < 4096) :
    readSprite s n = .ok (readCells s.mem s.i.toNat n.toNat) := by
  by_cases hn : n = 0
  · subst hn
    rfl
  · rw [readSprite, if_neg hn, memRead_inside (h.resolve_left hn)]

theorem readSprite_outside {s : State} {n : Nibble} (hn : n ≠ 0) (h : 4096 ≤ s.i.toNat + n.toNat - 1) :
    readSprite s n = .error (memError s s.i.toNat) := by
  rw [readSprite, if_neg hn, memRead_outside h]

theorem exec_drw_inside {s : State} {x y : Reg} {n : Nibble} (h : n = 0 ∨ s.i.toNat + n.toNat - 1 < 4096) :
    exec (.drw x y n) s =
      .next (advance ({ s with fb := (drawn x y n s).1 }.setV vf (collisionFlag (drawn x y n s).2))) := by
  simp only [exec, execDrw, readSprite_inside h]
  rfl

theorem exec_drw_outside {s : State} {x y : Reg} {n : Nibble} (hn : n ≠ 0) (h : 4096 ≤ s.i.toNat + n.toNat - 1) :
    exec (.drw x y n) s = .fault (memError s s.i.toNat) := by
  simp only [exec, execDrw, readSprite_outside hn h, raiseError]

theorem exec_drw_next {s t : State} {x y : Reg} {n : Nibble} (h : exec (.drw x y n) s = .next t) :
    ∃ _ : n = 0 ∨ s.i.toNat + n.toNat - 1 < 4096,
      t = advance ({ s with fb := (drawn x y n s).1 }.setV vf (collisionFlag (drawn x y n s).2)) :=
  check_of_next exec_drw_inside
    (fun hi => exec_drw_outside (fun hn => hi (.inl hn)) (Nat.le_of_not_lt fun hlt => hi (.inr hlt))) h

end Sys2Proof.Machine
end

section
/-! PROOFS. What an instruction may write: once for every field of the state, and for the general registers one by
one (10_state.md R13 to R25). -/

namespace Sys2Proof.Machine

/-- An instruction that answers a next state has written no field but the general registers and its listed parts. -/
theorem exec_sameFields {i : Instr} {s t : State} (h : exec i s = .next t) :
    SameFields (.v :: mayWritePart i) s t := by
  cases i with
  | ret =>
    obtain ⟨-, rfl⟩ := exec_ret_next h
    exact {}
  | call nnn =>
    obtain ⟨-, rfl⟩ := exec_call_next h
    exact {}
  | skp x =>
    obtain ⟨-, rfl⟩ := exec_skp_next h
    exact {}
  | sknp x =>
    obtain ⟨-, rfl⟩ := exec_sknp_next h
    exact {}
  | drw x y n =>
    obtain ⟨-, rfl⟩ := exec_drw_next h
    exact {}
  | ldB x | ldMemVx x =>
    obtain ⟨-, rfl⟩ := storeAtI_next h
    exact {}
  | ldVxMem x =>
    obtain ⟨-, rfl⟩ := exec_ldVxMem_next h
    exact {}
  | _ =>
    obtain rfl := Host.Outcome.next.inj h
    exact {}

/-- Settles O21: no field but the listed ones is written. -/
theorem eachPartHasOnlyItsListedWriters : Obligations.EachPartHasOnlyItsListedWriters :=
  fun _ _ _ h => (exec_sameFields h).sameBut

/-- `FX65` loads `V[0]` to `V[x]` and keeps the registers above (R145). -/
theorem getV_loadRun (s : State) (x r : Reg) :
    ({ s with v := loadRun s.v 0 (readCells s.mem s.i.toNat (x.val + 1)) } : State).getV r =
      if r ≤ x then s.byteAt (s.i.toNat + r.val) else s.getV r := by
  simp only [State.getV, Fin.getElem_fin, loadRun_getElem, readCells_length, readCells_getElem, Fin.le_def]
  by_cases hr : r.val ≤ x.val
  · rw [dif_pos ⟨Nat.zero_le _, by omega⟩, if_pos hr]
    rfl
  · rw [dif_neg (by omega), if_neg hr]

/-- An instruction that answers a next state has written no register but those it may write. -/
theorem exec_getV {i : Instr} {s t : State} {r : Reg} (h : exec i s = .next t) (hr : mayWriteReg r i = false) :
    t.getV r = s.getV r := by
  cases i with
  | ldImm x kk | addImm x kk | rnd x kk | ldVxDt x | ldReg x y | orReg x y | andReg x y | xorReg x y =>
    obtain rfl := Host.Outcome.next.inj h
    have hx : r ≠ x := by simpa [mayWriteReg] using hr
    exact State.getV_setV_ne hx _
  | addReg x y | subReg x y | subnReg x y =>
    obtain rfl := Host.Outcome.next.inj h
    obtain ⟨hx, hf⟩ : r ≠ x ∧ r ≠ 15 := by simpa [mayWriteReg] using hr
    exact (State.getV_setV_ne hf _).trans (State.getV_setV_ne hx _)
  | shrReg x y | shlReg x y =>
    obtain rfl := Host.Outcome.next.inj h
    obtain ⟨hx, hf⟩ : r ≠ x ∧ r ≠ 15 := by simpa [mayWriteReg] using hr
    exact (State.getV_setV_ne hx _).trans (State.getV_setV_ne hf _)
  | addI x =>
    obtain rfl := Host.Outcome.next.inj h
    have hf : r ≠ 15 := by simpa [mayWriteReg] using hr
    exact State.getV_setV_ne hf _
  | drw x y n =>
    obtain ⟨-, rfl⟩ := exec_drw_next h
    have hf : r ≠ 15 := by simpa [mayWriteReg] using hr
    exact State.getV_setV_ne hf _
  | ldVxMem x =>
    obtain ⟨-, rfl⟩ := exec_ldVxMem_next h
    have hx : ¬ r ≤ x := by simpa [mayWriteReg] using hr
    exact (getV_loadRun s x r).trans (if_neg hx)
  | ret =>
    obtain ⟨-, rfl⟩ := exec_ret_next h
    rfl
  | call nnn =>
    obtain ⟨-, rfl⟩ := exec_call_next h
    rfl
  | skp x =>
    obtain ⟨-, rfl⟩ := exec_skp_next h
    rfl
  | sknp x =>
    obtain ⟨-, rfl⟩ := exec_sknp_next h
    rfl
  | ldB x | ldMemVx x =>
    obtain ⟨-, rfl⟩ := storeAtI_next h
    rfl
  | cls | sys nnn | jp nnn | seImm x kk | sneImm x kk | seReg x y | sneReg x y | ldI nnn | jpV0 nnn | ldVxK x
  | ldDtVx x | ldStVx x | ldF x =>
    obtain rfl := Host.Outcome.next.inj h
    rfl

/-- Settles O20: instruction by instruction, the registers written are those it may write. -/
theorem onlyDestinationsAndFlagsChangeRegisters : Obligations.OnlyDestinationsAndFlagsChangeRegisters :=
  fun _ _ _ _ => exec_getV

end Sys2Proof.Machine
end

section
/-! PROOFS. Which instructions report an error, and which (60_exceptions.md R200 to R204, R208). -/

namespace Sys2Proof.Machine

/-- An instruction whose listed check fails reports the listed error. -/
theorem exec_of_listedError {i : Instr} {s : State} {f : Fault} (h : listedError s i = some f) :
    exec i s = .fault f := by
  cases i with
  | ret =>
    obtain ⟨hsp, rfl⟩ : s.sp.val = 0 ∧ Fault.stackUnderflow = f := by simpa [listedError] using h
    exact exec_ret_empty hsp
  | call nnn =>
    obtain ⟨hsp, rfl⟩ : s.sp.val = 16 ∧ Fault.stackOverflow = f := by simpa [listedError] using h
    exact exec_call_full nnn hsp
  | skp x =>
    obtain ⟨hx, rfl⟩ : 15 < (s.getV x).toNat ∧ _ = f := by simpa [listedError] using h
    exact exec_skp_absent hx
  | sknp x =>
    obtain ⟨hx, rfl⟩ : 15 < (s.getV x).toNat ∧ _ = f := by simpa [listedError] using h
    exact exec_sknp_absent hx
  | drw x y n =>
    obtain ⟨⟨hn, hi⟩, rfl⟩ : (1 ≤ n.toNat ∧ 4096 ≤ s.i.toNat + n.toNat - 1) ∧ _ = f := by
      simpa [listedError] using h
    exact exec_drw_outside (fun e => by simp [e] at hn) hi
  | ldB x =>
    obtain ⟨hi, rfl⟩ : 4096 ≤ s.i.toNat + 2 ∧ _ = f := by simpa [listedError] using h
    exact (exec_ldB x s).trans (storeAtI_outside hi)
  | ldMemVx x =>
    obtain ⟨hi, rfl⟩ : 4096 ≤ s.i.toNat + x.val ∧ _ = f := by simpa [listedError] using h
    exact exec_ldMemVx_outside hi
  | ldVxMem x =>
    obtain ⟨hi, rfl⟩ : 4096 ≤ s.i.toNat + x.val ∧ _ = f := by simpa [listedError] using h
    exact exec_ldVxMem_outside hi
  | _ => cases h

/-- An instruction whose listed check holds, or that makes none, completes. -/
theorem exec_of_no_listedError {i : Instr} {s : State} (h : listedError s i = none) : ∃ t, exec i s = .next t := by
  cases i with
  | ret =>
    have hsp : s.sp.val ≠ 0 := by simpa [listedError] using h
    exact ⟨_, exec_ret_live (Nat.pos_of_ne_zero hsp)⟩
  | call nnn =>
    have hsp : s.sp.val ≠ 16 := by simpa [listedError] using h
    exact ⟨_, exec_call_room nnn (by omega)⟩
  | skp x =>
    have hx : (s.getV x).toNat ≤ 15 := by simpa [listedError] using h
    exact ⟨_, exec_skp_exists (Nat.lt_succ_of_le hx)⟩
  | sknp x =>
    have hx : (s.getV x).toNat ≤ 15 := by simpa [listedError] using h
    exact ⟨_, exec_sknp_exists (Nat.lt_succ_of_le hx)⟩
  | drw x y n =>
    have hi : 1 ≤ n.toNat → s.i.toNat + n.toNat - 1 < 4096 := by simpa [listedError] using h
    refine ⟨_, exec_drw_inside (or_iff_not_imp_left.mpr fun hn => hi (Nat.pos_of_ne_zero fun e => hn ?_))⟩
    exact BitVec.eq_of_toNat_eq e
  | ldB x =>
    have hi : ¬ 4096 ≤ s.i.toNat + 2 := by simpa only [listedError, ge_iff_le, ite_eq_right_iff, reduceCtorEq] using h
    exact ⟨_, (exec_ldB x s).trans (storeAtI_inside (Nat.lt_of_not_le hi))⟩
  | ldMemVx x =>
    have hi : s.i.toNat + x.val < 4096 := by simpa [listedError] using h
    exact ⟨_, exec_ldMemVx_inside hi⟩
  | ldVxMem x =>
    have hi : s.i.toNat + x.val < 4096 := by simpa [listedError] using h
    exact ⟨_, exec_ldVxMem_inside hi⟩
  | _ => exact ⟨_, rfl⟩

theorem exec_eq_fault_iff {i : Instr} {s : State} {f : Fault} : exec i s = .fault f ↔ listedError s i = some f := by
  refine ⟨fun h => ?_, exec_of_listedError⟩
  cases hl : listedError s i with
  | some g =>
    rw [exec_of_listedError hl] at h
    cases h
    rfl
  | none =>
    obtain ⟨t, ht⟩ := exec_of_no_listedError hl
    rw [ht] at h
    cases h

theorem exec_ne_refused (i : Instr) (s : State) (r : Refusal) : exec i s ≠ .refused r := by
  intro h
  cases hl : listedError s i with
  | some g =>
    rw [exec_of_listedError hl] at h
    cases h
  | none =>
    obtain ⟨t, ht⟩ := exec_of_no_listedError hl
    rw [ht] at h
    cases h

end Sys2Proof.Machine
end

section
/-! PROOFS. The stages of a step and their order: wait, fetch, decode, execute, tick (40_step_cycle.md R80 to R90). -/

namespace Sys2Proof.Machine

/-! ## How a step ends -/

theorem step_fetch_error {s : State} {f : Fault} (hw : s.wait.active = false) (hf : fetchWord s = .error f) :
    step s = .fault f := by
  simp [step, cycle, hw, hf, raiseError]

theorem step_no_match {s : State} {w : Word} (hw : s.wait.active = false) (hf : fetchWord s = .ok w)
    (hd : decodeWord w = none) : step s = .fault (.decodeError s.pc w) := by
  simp [step, cycle, hw, hf, hd, raiseError]

/-- A step that fetches the word of an instruction that completes ticks after it. -/
theorem step_fetched {i : Instr} {s t : State} (hw : s.wait.active = false) (hf : fetchWord s = .ok (encode i))
    (hd : decodeWord (encode i) = some i) (ht : exec i s = .next t) : step s = .next (tick t) := by
  rw [step_decoded hw hf hd, ht, finishStep]

theorem engineStep_fault {s : State} {f : Fault} (h : step s = .fault f) : engineStep s = .ok (s, .error f) := by
  simp only [engineStep, h]

theorem transact_step_fault {s : State} {f : Fault} (h : step s = .fault f) :
    transact s .step = .ok (s, .status (.error f)) := by
  simp only [transact, engineStep_fault h]

/-- Settles O6: the bytes at `PC` are the word the fetch answers, and the end of the step is `finishStep`. -/
theorem stepRunsTheDecodedInstruction : Obligations.StepRunsTheDecodedInstruction := by
  intro s i hw hpc hdecode
  rw [step_decoded hw (fetchWord_inside hpc) (decode_two_eq_ok hdecode)]
  cases exec i s with
  | next t => rfl
  | fault f => rfl
  | refused r => rfl

/-- Settles O7: the wait stage acts on the lowest pressed key, if there is one. -/
theorem waitingStepTakesTheLowestKey : Obligations.WaitingStepTakesTheLowestKey := by
  intro s hw
  refine ⟨fun k hk hlow => ?_, fun hnone => ?_⟩
  · have hfirst : firstKey s = some k.val :=
      firstKey_eq_some.mpr ⟨k.isLt, hk, fun j hj => hlow ⟨j, by omega⟩ hj⟩
    have hstage : waitStage s =
        { s.setV s.wait.target (BitVec.ofNat 8 k.val) with wait := { s.wait with active := false } } := by
      rw [waitStage, hfirst]
    refine ⟨_, step_waiting hw, ?_, ?_, ?_, (sameFields_waitStage s).sameBut⟩
    · rw [hstage]
      exact State.getV_setV_self s _ _
    · intro r hr
      rw [hstage]
      exact State.getV_setV_ne hr _
    · rw [hstage]
  · rw [step_waiting hw, waitStage, firstKey_eq_none.mpr hnone]

theorem memError_pc (s : State) (h : 4096 ≤ s.pc.toNat + 1) :
    memError s s.pc.toNat =
      .outOfBounds s.pc .mem (if 4096 ≤ s.pc.toNat then s.pc.toNat else s.pc.toNat + 1) := by
  rw [memError]
  congr 1
  split <;> simp only [Config.memSize] <;> omega

/-- Settles O8: inside memory the fetch joins the two bytes, outside it is the step's error. -/
theorem fetchReadsABigEndianWordInMemory : Obligations.FetchReadsABigEndianWordInMemory := by
  intro s
  refine ⟨fun hpc => ⟨_, fetchWord_inside hpc, joinBytes_toNat _ _⟩, fun hw hpc => ?_⟩
  rw [step_fetch_error hw (fetchWord_outside hpc), memError_pc s hpc]

/-- Settles O9: the decode stage raises the error, and the host keeps the state it had. -/
theorem undecodableWordIsReported : Obligations.UndecodableWordIsReported := by
  intro s w hw hf hd
  have hstep := step_no_match hw hf hd
  exact ⟨hstep, engineStep_fault hstep⟩

/-! ## The tick (R88) -/

/-- Only `FX0A` sets the wait latch. -/
theorem exec_wait {i : Instr} {s t : State} (h : exec i s = .next t) (hi : ∀ x, i ≠ .ldVxK x) : t.wait = s.wait := by
  refine (exec_sameFields h).wait.resolve_left ?_
  cases i with
  | ldVxK x => exact absurd rfl (hi x)
  | _ => simp [mayWritePart]

/-- Settles O11: the wait latch tells the tick whether the instruction was `FX0A`. -/
theorem timersTickAfterTheInstruction : Obligations.TimersTickAfterTheInstruction := by
  intro s t h
  obtain ⟨hw, rfl⟩ | ⟨hw, w, i, u, hf, hd, hu, rfl⟩ := step_next h
  · have hfields := sameFields_waitStage s
    exact ⟨fun _ => ⟨hfields.dt.resolve_left (by simp), hfields.st.resolve_left (by simp)⟩,
      fun hf => absurd (hw.symm.trans hf) (by simp)⟩
  · refine ⟨fun ha => absurd (hw.symm.trans ha) (by simp), fun _ =>
      ⟨w, i, u, hf, hd, hu, (sameFields_tick u).sameBut, ?_, fun hi => ?_⟩⟩
    · rintro ⟨x, rfl⟩
      obtain rfl := Host.Outcome.next.inj hu
      exact ⟨rfl, rfl⟩
    · have hrun : u.wait.active = false := by rw [exec_wait hu hi, hw]
      rw [tick_running hrun]
      exact ⟨countDown_toNat u.dt, countDown_toNat u.st⟩

/-! ## Errors (R89, R200 to R208) -/

theorem finishStep_refused {r : Result} {a : Refusal} (h : finishStep r = .refused a) : r = .refused a := by
  cases r with
  | next u => cases h
  | fault f => cases h
  | refused b =>
    cases h
    rfl

/-- No step is refused: every instruction has its meaning. -/
theorem step_ne_refused (s : State) (r : Refusal) : step s ≠ .refused r := by
  intro h
  cases hw : s.wait.active with
  | true =>
    rw [step_waiting hw] at h
    cases h
  | false =>
    cases hf : fetchWord s with
    | error f =>
      rw [step_fetch_error hw hf] at h
      cases h
    | ok w =>
      cases hd : decodeWord w with
      | none =>
        rw [step_no_match hw hf hd] at h
        cases h
      | some i =>
        rw [step_decoded hw hf hd] at h
        exact exec_ne_refused i s r (finishStep_refused h)

/-- Settles O12: the checks of a step in their order, and the one check of each instruction. -/
theorem errorsAreExactlyTheListedOnes : Obligations.ErrorsAreExactlyTheListedOnes := by
  refine ⟨fun s f => ⟨fun h => ?_, ?_⟩, fun s r h => ?_⟩
  · obtain ⟨hw, herr⟩ := step_fault h
    refine ⟨hw, ?_⟩
    by_cases hpc : s.pc.toNat + 1 < 4096
    · obtain hf | ⟨w, hf, hdec⟩ := herr
      · rw [fetchWord_inside hpc] at hf
        cases hf
      · exact .inr ⟨hpc, w, hf, hdec.imp id fun ⟨i, hd, hi⟩ => ⟨i, hd, exec_eq_fault_iff.mp hi⟩⟩
    · obtain hf | ⟨w, hf, -⟩ := herr
      · rw [fetchWord_outside (Nat.le_of_not_lt hpc)] at hf
        exact .inl ⟨Nat.le_of_not_lt hpc, (Except.error.inj hf).symm⟩
      · exact absurd (fetchWord_ok hf).1 hpc
  · rintro ⟨hw, ⟨hpc, rfl⟩ | ⟨-, w, hf, ⟨hd, rfl⟩ | ⟨i, hd, hi⟩⟩⟩
    · exact step_fetch_error hw (fetchWord_outside hpc)
    · exact step_no_match hw hf hd
    · rw [step_decoded hw hf hd, exec_of_listedError hi, finishStep, raiseError]
  · exact step_ne_refused s r h

/-- Settles O13: by induction on the number of steps, each of which answers the error with the state as it was. -/
theorem anErrorStepChangesNothingAndRepeats : Obligations.AnErrorStepChangesNothingAndRepeats := by
  intro s f h n
  induction n with
  | zero => rfl
  | succ n ih => simp only [List.replicate_succ, drive, transact_step_fault h, ih]

end Sys2Proof.Machine
end

section
/-! PROOFS. Where `PC` goes (40_step_cycle.md R86). -/

namespace Sys2Proof.Machine

/-- `PC + 2` is a sum of unbounded numbers where the instruction has been fetched. -/
theorem pc_add_two {pc : Word} (h : pc.toNat + 1 < 4096) : (pc + 2).toNat = pc.toNat + 2 := by
  rw [BitVec.toNat_add]
  simp
  omega

theorem pc_add_four {pc : Word} (h : pc.toNat + 1 < 4096) : (pc + 4).toNat = pc.toNat + 4 := by
  rw [BitVec.toNat_add]
  simp
  omega

/-- `nnn + V0` does not wrap in 16 bits (R104; D15). -/
theorem zext12_add_zext8_toNat (nnn : Addr12) (b : Byte) : (zext12 nnn + zext8 b).toNat = nnn.toNat + b.toNat := by
  have := nnn.isLt
  have := b.isLt
  rw [BitVec.toNat_add, zext12_toNat, zext8, BitVec.toNat_setWidth_of_le (by decide)]
  omega

/-- A skip instruction goes to `PC + 4` if it skips and to `PC + 2` if not. -/
theorem skipIf_pc_cases {s : State} {i : Instr} {b : Bool} (hb : skipTaken s i = some b)
    (hpc : s.pc.toNat + 1 < 4096) :
    (skipTaken s i = some true ∧ (skipIf b s).pc.toNat = s.pc.toNat + 4) ∨
      (skipTaken s i = some false ∧ (skipIf b s).pc.toNat = s.pc.toNat + 2) := by
  cases b with
  | true => exact .inl ⟨hb, pc_add_four hpc⟩
  | false => exact .inr ⟨hb, pc_add_two hpc⟩

/-- The table of R86: where `PC` is after instruction `i` has run in `s`. -/
def PcAfter (s : State) (i : Instr) (pc : Word) : Prop :=
  match i with
  | .ret => ∀ k : Fin 16, k.val + 1 = s.sp.val → pc = s.stack[k]
  | .jp nnn | .call nnn => pc.toNat = nnn.toNat
  | .jpV0 nnn => pc.toNat = nnn.toNat + (s.getV 0).toNat
  | .seImm _ _ | .sneImm _ _ | .seReg _ _ | .sneReg _ _ | .skp _ | .sknp _ =>
    (skipTaken s i = some true ∧ pc.toNat = s.pc.toNat + 4) ∨
    (skipTaken s i = some false ∧ pc.toNat = s.pc.toNat + 2)
  | _ => pc.toNat = s.pc.toNat + 2

theorem exec_pc {i : Instr} {s t : State} (hpc : s.pc.toNat + 1 < 4096) (h : exec i s = .next t) :
    PcAfter s i t.pc := by
  cases i with
  | ret =>
    obtain ⟨-, rfl⟩ := exec_ret_next h
    intro k hk
    simp [← hk]
  | jp nnn =>
    obtain rfl := Host.Outcome.next.inj h
    exact zext12_toNat nnn
  | call nnn =>
    obtain ⟨-, rfl⟩ := exec_call_next h
    exact zext12_toNat nnn
  | jpV0 nnn =>
    obtain rfl := Host.Outcome.next.inj h
    exact zext12_add_zext8_toNat nnn _
  | seImm x kk | sneImm x kk | seReg x y | sneReg x y =>
    obtain rfl := Host.Outcome.next.inj h
    exact skipIf_pc_cases (by simp [skipTaken, bne, beq_eq_decide]) hpc
  | skp x =>
    obtain ⟨hx, rfl⟩ := exec_skp_next h
    exact skipIf_pc_cases (dif_pos hx) hpc
  | sknp x =>
    obtain ⟨hx, rfl⟩ := exec_sknp_next h
    exact skipIf_pc_cases (dif_pos hx) hpc
  | ldB x | ldMemVx x =>
    obtain ⟨-, rfl⟩ := storeAtI_next h
    exact pc_add_two hpc
  | ldVxMem x =>
    obtain ⟨-, rfl⟩ := exec_ldVxMem_next h
    exact pc_add_two hpc
  | drw x y n =>
    obtain ⟨-, rfl⟩ := exec_drw_next h
    exact pc_add_two hpc
  | _ =>
    obtain rfl := Host.Outcome.next.inj h
    exact pc_add_two hpc

/-- Settles O10: the table of the execute stage, and the tick leaves `PC` alone. -/
theorem pcGoesWhereTheTableSays : Obligations.PcGoesWhereTheTableSays := by
  intro s t w i hw hf hd h
  rw [step_decoded hw hf hd] at h
  obtain ⟨u, hu, rfl⟩ := finishStep_next h
  rw [tick_pc]
  exact exec_pc (fetchWord_ok hf).1 hu

end Sys2Proof.Machine
end

section
/-! PROOFS. The invariant of every state the host can bring the engine to (10_state.md R16, R18). -/

namespace Sys2Proof.Machine

/-- The invariant speaks of memory, `I`, `PC` and the stack only. -/
theorem BoundaryInv.of_sameFields {parts : List Part} {s t : State} (hs : BoundaryInv s) (h : SameFields parts s t)
    (hparts : .mem ∉ parts ∧ .i ∉ parts ∧ .pc ∉ parts ∧ .stack ∉ parts) : BoundaryInv t := by
  obtain ⟨hmem, hi, hpc, hstack⟩ := hparts
  constructor
  · rw [h.mem.resolve_left hmem]
    exact hs.mem
  · rw [h.i.resolve_left hi]
    exact hs.i
  · rw [h.pc.resolve_left hpc]
    exact hs.pc
  · rw [h.sp.resolve_left hstack, h.stack.resolve_left hstack]
    exact hs.live

/-! ## What the execute stage does to each of the four bounds -/

/-- A store that completes lies in memory, so the canonical form stays. -/
theorem storeAtI_mem_wf {s t : State} {bs : List Byte} (hs : Memory.wf s.mem) (h : storeAtI bs s = .next t) :
    Memory.wf t.mem := by
  obtain ⟨hi, rfl⟩ := storeAtI_next h
  cases bs with
  | nil => exact hs
  | cons b bs => exact wf_writeCells hs _ _ (by simp only [List.length_cons] at hi ⊢; omega)

theorem exec_mem_wf {i : Instr} {s t : State} (hs : Memory.wf s.mem) (h : exec i s = .next t) : Memory.wf t.mem := by
  cases i with
  | ldB x => exact storeAtI_mem_wf hs h
  | ldMemVx x => exact storeAtI_mem_wf hs h
  | _ =>
    rw [(exec_sameFields h).mem.resolve_left (by simp [mayWritePart])]
    exact hs

theorem addIndex_toNat (i : Word) (a : Byte) : (addIndex i a).toNat = (i.toNat + a.toNat) % 4096 := by
  simp only [addIndex, Config.indexModulus, BitVec.toNat_ofNat]
  omega

/-- The address of a glyph, not masked (R142; D21). -/
theorem glyphAddress_toNat (a : Byte) : (glyphAddress a).toNat = 5 * a.toNat := by
  have := a.isLt
  simp only [glyphAddress, Config.glyphSize, BitVec.toNat_ofNat]
  omega

theorem exec_i_le {i : Instr} {s t : State} (hs : s.i.toNat ≤ 0xFFF) (h : exec i s = .next t) : t.i.toNat ≤ 0xFFF := by
  cases i with
  | ldI nnn =>
    obtain rfl := Host.Outcome.next.inj h
    exact (zext12_toNat nnn).trans_le (Nat.le_of_lt_succ nnn.isLt)
  | addI x =>
    obtain rfl := Host.Outcome.next.inj h
    exact (addIndex_toNat _ _).trans_le (by omega)
  | ldF x =>
    obtain rfl := Host.Outcome.next.inj h
    have := (s.getV x).isLt
    exact (glyphAddress_toNat _).trans_le (by omega)
  | _ =>
    rw [(exec_sameFields h).i.resolve_left (by simp [mayWritePart])]
    exact hs

/-- A return address pushed is `PC + 2` of a fetched instruction (R103; D14). -/
theorem exec_live_le {i : Instr} {s t : State} (hpc : s.pc.toNat + 1 < 4096)
    (hs : ∀ k : Fin 16, k.val < s.sp.val → s.stack[k].toNat ≤ 0x1000) (h : exec i s = .next t) :
    ∀ k : Fin 16, k.val < t.sp.val → t.stack[k].toNat ≤ 0x1000 := by
  cases i with
  | ret =>
    obtain ⟨-, rfl⟩ := exec_ret_next h
    intro k hk
    exact hs k (Nat.lt_of_lt_of_le hk (Nat.sub_le _ _))
  | call nnn =>
    obtain ⟨hsp, rfl⟩ := exec_call_next h
    intro k hk
    by_cases hnew : s.sp.val = k.val
    · have := pc_add_two hpc
      simp only [jumpTo_stack, Fin.getElem_fin, hnew, Vector.getElem_set_self]
      omega
    · have hk' : k.val < s.sp.val := by
        have : k.val < s.sp.val + 1 := hk
        omega
      simpa [Vector.getElem_set_ne _ _ hnew] using hs k hk'
  | _ =>
    have hfields := exec_sameFields h
    rw [hfields.sp.resolve_left (by simp [mayWritePart]), hfields.stack.resolve_left (by simp [mayWritePart])]
    exact hs

theorem exec_pc_le {i : Instr} {s t : State} (hpc : s.pc.toNat + 1 < 4096)
    (hs : ∀ k : Fin 16, k.val < s.sp.val → s.stack[k].toNat ≤ 0x1000) (h : exec i s = .next t) :
    t.pc.toNat ≤ 0x10FE := by
  have htable := exec_pc hpc h
  cases i with
  | ret =>
    obtain ⟨hsp, -⟩ := exec_ret_next h
    have hk : s.sp.val - 1 + 1 = s.sp.val := by omega
    have hlive := hs ⟨s.sp.val - 1, by omega⟩ (by simp only; omega)
    rw [htable ⟨s.sp.val - 1, by omega⟩ hk]
    omega
  | jp nnn | call nnn =>
    have : t.pc.toNat = nnn.toNat := htable
    have := nnn.isLt
    omega
  | jpV0 nnn =>
    have : t.pc.toNat = nnn.toNat + (s.getV 0).toNat := htable
    have := nnn.isLt
    have := (s.getV 0).isLt
    omega
  | seImm _ _ | sneImm _ _ | seReg _ _ | sneReg _ _ | skp _ | sknp _ =>
    obtain ⟨-, htaken⟩ | ⟨-, hnot⟩ := htable
    · omega
    · omega
  | _ =>
    have : t.pc.toNat = s.pc.toNat + 2 := htable
    omega

theorem exec_keeps_boundaryInv {i : Instr} {s t : State} (hs : BoundaryInv s) (hpc : s.pc.toNat + 1 < 4096)
    (h : exec i s = .next t) : BoundaryInv t where
  mem := exec_mem_wf hs.mem h
  i := exec_i_le hs.i h
  pc := exec_pc_le hpc hs.live h
  live := exec_live_le hpc hs.live h

/-! ## Steps, transactions, runs -/

/-- Settles O18: a waiting step and the tick write none of the four, and what the execute stage writes is bounded. -/
theorem everyStepKeepsTheInvariant : Obligations.EveryStepKeepsTheInvariant := by
  intro s t hs h
  obtain ⟨-, rfl⟩ | ⟨-, w, i, u, hf, -, hu, rfl⟩ := step_next h
  · exact hs.of_sameFields (sameFields_waitStage s) (by simp)
  · exact (exec_keeps_boundaryInv hs (fetchWord_ok hf).1 hu).of_sameFields (sameFields_tick u) (by simp)

theorem wf_nil : Memory.wf [] := ⟨List.Pairwise.nil, by simp⟩

/-- Settles O17: nothing is listed, live or above its bound. -/
theorem resetMeetsTheInvariant : Obligations.ResetMeetsTheInvariant where
  mem := wf_nil
  i := by decide
  pc := by decide
  live := fun k hk => absurd hk (Nat.not_lt_zero k.val)

theorem sameFields_construct (glyphs : Vector Byte 80) : SameFields [.mem] State.reset (construct glyphs) := by
  rw [construct]
  exact {}

theorem boundaryInv_construct (glyphs : Vector Byte 80) : BoundaryInv (construct glyphs) where
  mem := wf_writeCells wf_nil 0 _ (by simp [Config.memSize])
  i := resetMeetsTheInvariant.i
  pc := resetMeetsTheInvariant.pc
  live := resetMeetsTheInvariant.live

/-- Settles O57: a transaction is a step, a load inside memory, a key, or changes nothing. -/
theorem everyTransactionKeepsTheInvariant : Obligations.EveryTransactionKeepsTheInvariant := by
  refine ⟨boundaryInv_construct, fun s t c a hs h => ?_⟩
  obtain rfl | ⟨bytes, -, hlen, rfl⟩ | ⟨k, b, hk, -, rfl⟩ | ⟨-, hstep⟩ := transact_ok h
  · exact hs
  · exact ⟨wf_writeCells hs.mem _ _ (by simp only [Config.progBase, Config.memSize]; omega), hs.i, hs.pc, hs.live⟩
  · exact ⟨hs.mem, hs.i, hs.pc, hs.live⟩
  · exact everyStepKeepsTheInvariant s t hs hstep

theorem drive_cons_ok {s u : State} {c : HostCall} {cs : List HostCall} {replies : List HostReply}
    (h : drive s (c :: cs) = .ok (u, replies)) :
    ∃ t a as, transact s c = .ok (t, a) ∧ drive t cs = .ok (u, as) ∧ replies = a :: as := by
  rw [drive] at h
  split at h
  · cases h
  · next t a ht =>
    split at h
    · cases h
    · next v as hd =>
      cases h
      exact ⟨t, a, as, ht, hd, rfl⟩

/-- What every transaction keeps, every list of transactions keeps. -/
theorem drive_keeps {P : State → Prop} (hP : ∀ s t c a, P s → transact s c = .ok (t, a) → P t)
    {s u : State} {calls : List HostCall} {replies : List HostReply} (hs : P s)
    (h : drive s calls = .ok (u, replies)) : P u := by
  induction calls generalizing s replies with
  | nil =>
    cases h
    exact hs
  | cons c cs ih =>
    obtain ⟨t, a, as, ht, hd, -⟩ := drive_cons_ok h
    exact ih (hP s t c a hs ht) hd

/-- Settles O19: by induction on the host's calls from construction. -/
theorem everyReachableStateMeetsTheInvariant : Obligations.EveryReachableStateMeetsTheInvariant :=
  fun glyphs _ _ _ h => drive_keeps everyTransactionKeepsTheInvariant.2 (boundaryInv_construct glyphs) h

end Sys2Proof.Machine
end

section
/-! PROOFS. A failing step fails again after every transaction but a load (60_exceptions.md R207). -/

namespace Sys2Proof.Machine

theorem listedError_setKey (s : State) (key : Vector Bool 16) (i : Instr) :
    listedError { s with key := key } i = listedError s i := by
  cases i <;> rfl

/-- No check of a step reads the key latch: whether a key number exists is told by the register (R208; D18). -/
theorem step_setKey_fault {s : State} {f : Fault} (key : Vector Bool 16) (h : step s = .fault f) :
    step { s with key := key } = .fault f := by
  obtain ⟨hw, herr⟩ := step_fault h
  have hw' : ({ s with key := key } : State).wait.active = false := hw
  obtain hf | ⟨w, hf, ⟨hd, rfl⟩ | ⟨i, hd, hi⟩⟩ := herr
  · exact step_fetch_error hw' hf
  · exact step_no_match hw' hf hd
  · rw [step_decoded hw' hf hd, exec_of_listedError ((listedError_setKey s key i).trans (exec_eq_fault_iff.mp hi)),
      finishStep, raiseError]

/-- Every transaction runs, since no step is refused. -/
theorem transact_runs (s : State) (c : HostCall) : ∃ t a, transact s c = .ok (t, a) := by
  cases c with
  | loadProgram bytes =>
    simp only [transact]
    split <;> exact ⟨_, _, rfl⟩
  | step =>
    cases h : step s with
    | next t => exact ⟨t, .status .ok, by simp only [transact, engineStep, h]⟩
    | fault f => exact ⟨s, .status (.error f), transact_step_fault h⟩
    | refused r => exact absurd h (step_ne_refused s r)
  | setKey k pressed =>
    simp only [transact]
    split <;> exact ⟨_, _, rfl⟩
  | readPixel p =>
    simp only [transact]
    split <;> exact ⟨_, _, rfl⟩
  | soundActive => exact ⟨_, _, rfl⟩

theorem transact_keeps_fault {s t : State} {f : Fault} {c : HostCall} {a : HostReply} (h : step s = .fault f)
    (hc : ∀ bytes, c ≠ .loadProgram bytes) (ht : transact s c = .ok (t, a)) : step t = .fault f := by
  obtain rfl | ⟨bytes, rfl, -⟩ | ⟨k, b, hk, -, rfl⟩ | ⟨-, hstep⟩ := transact_ok ht
  · exact h
  · exact absurd rfl (hc bytes)
  · exact step_setKey_fault _ h
  · rw [h] at hstep
    cases hstep

theorem drive_cons {s t u : State} {c : HostCall} {cs : List HostCall} {a : HostReply} {as : List HostReply}
    (ht : transact s c = .ok (t, a)) (hd : drive t cs = .ok (u, as)) : drive s (c :: cs) = .ok (u, a :: as) := by
  simp only [drive, ht, hd]

/-- Settles O14: the failing check reads nothing that a transaction other than a load writes. -/
theorem onlyLoadProgramClearsAnError : Obligations.OnlyLoadProgramClearsAnError := by
  intro s f calls
  induction calls generalizing s with
  | nil => exact fun h _ => ⟨s, [], rfl, h⟩
  | cons c cs ih =>
    intro h hcalls
    obtain ⟨hc, hcs⟩ := List.forall_mem_cons.mp hcalls
    obtain ⟨t, a, ht⟩ := transact_runs s c
    obtain ⟨u, as, hd, hu⟩ := ih t (transact_keeps_fault h hc ht) hcs
    exact ⟨u, a :: as, drive_cons ht hd, hu⟩

end Sys2Proof.Machine
end

section
/-! PROOFS. Construction, the load, the key port and the read ports (60_exceptions.md, 70_reset_and_hazards.md). -/

namespace Sys2Proof.Machine

theorem font_length : font.length = 80 := rfl

/-- Above the font an address nothing has written reads as zero (R28). -/
theorem bootByte_above {a : Nat} (h : 80 ≤ a) : bootByte a = 0 := List.getD_eq_default _ _ (font_length.trans_le h)

/-- Settles O15: memory lists nothing, and every other field is a constant. -/
theorem resetLeavesTheConstructionValues : Obligations.ResetLeavesTheConstructionValues := by
  refine ⟨rfl, fun a => ?_, font_length, fun r => ?_, rfl, rfl, fun k => ?_, rfl, rfl, screenPixel_clear, fun k => ?_,
    rfl⟩
  · split
    · rfl
    · next ha => exact bootByte_above (Nat.le_of_not_lt ha)
  · exact Vector.getElem_replicate r.isLt
  · exact Vector.getElem_replicate k.isLt
  · exact Vector.getElem_replicate k.isLt

/-- Settles O16: the glyphs are one run of writes to a memory that lists nothing. -/
theorem constructionTakesAnyFont : Obligations.ConstructionTakesAnyFont := by
  intro glyphs
  refine ⟨fun a => ?_, fun a ha => ?_, (sameFields_construct glyphs).sameBut⟩
  · have := readCell_writeCells [] 0 glyphs.toList a.val (by simp)
    simpa [construct, State.byteAt] using this
  · have := readCell_writeCells_above [] 0 glyphs.toList (q := a) (by simpa using ha)
    exact this.trans (bootByte_above ha)

theorem sameBytesOutside_writeCells (s : State) (a : Nat) (bs : List Byte) :
    SameBytesOutside a bs.length s { s with mem := writeCells s.mem a bs } := by
  rintro b (hb | hb)
  · exact readCell_writeCells_below _ _ _ hb
  · exact readCell_writeCells_above _ _ _ hb

/-- Settles O51: a load that fits is one run of writes at 0x200. -/
theorem loadProgramCopiesTheBytes : Obligations.LoadProgramCopiesTheBytes := by
  intro s bytes
  refine ⟨fun h => ?_, fun h => if_pos h⟩
  exact ⟨_, if_neg (Nat.not_lt.mpr h), fun j hj => readCell_writeCells _ _ _ j hj,
    sameBytesOutside_writeCells s 0x200 bytes, SameFields.sameBut {}⟩

/-- Settles O52: the one write of the key latch. -/
theorem setKeyWritesOneLatch : Obligations.SetKeyWritesOneLatch := by
  intro s k b
  refine ⟨fun h => ?_, fun h => dif_neg (Nat.not_lt.mpr h)⟩
  exact ⟨_, dif_pos h, Vector.getElem_set_self h, fun j hj => Vector.getElem_set_ne h j.isLt (Ne.symm hj),
    SameFields.sameBut {}⟩

/-- Settles O53: the ports answer what they read. -/
theorem readPortsChangeNothing : Obligations.ReadPortsChangeNothing := by
  intro s p
  refine ⟨fun h => ?_, fun h => ?_, ?_⟩
  · simp only [transact, readPixel, Config.nPixels, if_pos h]
  · simp only [transact, readPixel, Config.nPixels, if_neg (Nat.not_lt.mpr h)]
  · simp [transact, soundActive, bne, beq_eq_decide]

end Sys2Proof.Machine
end

section
/-! PROOFS. What no step reads: the sound timer, dead stack entries, and the target of an inactive wait
(10_state.md R19, R22, R25). -/

namespace Sys2Proof.Machine

/-! ## Two steps side by side -/

theorem SameOutcome.cases {R : State → State → Prop} {a b : Result} (h : SameOutcome R a b) :
    (∃ u v, a = .next u ∧ b = .next v ∧ R u v) ∨ (∃ f, a = .fault f ∧ b = .fault f) ∨
      ∃ r, a = .refused r ∧ b = .refused r := by
  unfold SameOutcome at h
  split at h
  · next u v => exact .inl ⟨u, v, rfl, rfl, h⟩
  · next f g => exact .inr (.inl ⟨f, rfl, congrArg _ h.symm⟩)
  · next r q => exact .inr (.inr ⟨r, rfl, congrArg _ h.symm⟩)
  · exact h.elim

theorem SameOutcome.finishStep {R : State → State → Prop} {a b : Result} (h : SameOutcome R a b)
    (htick : ∀ u v, R u v → R (tick u) (tick v)) : SameOutcome R (finishStep a) (finishStep b) := by
  obtain ⟨u, v, rfl, rfl, huv⟩ | ⟨f, rfl, rfl⟩ | ⟨r, rfl, rfl⟩ := h.cases
  · exact htick u v huv
  · rfl
  · rfl

theorem SameOutcome.mono {R Q : State → State → Prop} {a b : Result} (h : SameOutcome R a b)
    (hRQ : ∀ u v, R u v → Q u v) : SameOutcome Q a b := by
  obtain ⟨u, v, rfl, rfl, huv⟩ | ⟨f, rfl, rfl⟩ | ⟨r, rfl, rfl⟩ := h.cases
  · exact hRQ u v huv
  · rfl
  · rfl

/-- Two steps agree if their stages do, and the relation outlasts the tick. -/
theorem step_sameOutcome {R : State → State → Prop} {s t : State} (hactive : t.wait.active = s.wait.active)
    (hwait : s.wait.active = true → R (waitStage s) (waitStage t)) (hpc : t.pc = s.pc) (hmem : t.mem = s.mem)
    (hexec : ∀ i, SameOutcome R (exec i s) (exec i t)) (htick : ∀ u v, R u v → R (tick u) (tick v)) :
    SameOutcome R (step s) (step t) := by
  have hfetch : fetchWord t = fetchWord s := by simp only [fetchWord, memError, State.byteAt, hpc, hmem]
  cases hw : s.wait.active with
  | true =>
    rw [step_waiting hw, step_waiting (hactive.trans hw)]
    exact hwait hw
  | false =>
    have hw' := hactive.trans hw
    cases hf : fetchWord s with
    | error f =>
      rw [step_fetch_error hw hf, step_fetch_error hw' (hfetch.trans hf)]
      rfl
    | ok w =>
      cases hd : decodeWord w with
      | none =>
        rw [step_no_match hw hf hd, step_no_match hw' (hfetch.trans hf) hd]
        exact congrArg (Fault.decodeError · w) hpc.symm
      | some i =>
        rw [step_decoded hw hf hd, step_decoded hw' (hfetch.trans hf) hd]
        exact SameOutcome.finishStep (hexec i) htick

/-! ## The execute stage carries the parts it does not read along -/

/-- The state with another sound timer, other stack entries and another wait latch. -/
def State.withUnread (s : State) (st : Byte) (stack : Vector Word 16) (wait : WaitLatch) : State :=
  { s with st := st, stack := stack, wait := wait }

/-- An outcome with its next state, if it has one, mapped. -/
def mapNext (f : State → State) : Result → Result
  | .next s => .next (f s)
  | .fault g => .fault g
  | .refused r => .refused r

theorem sameOutcome_mapNext {R : State → State → Prop} {f : State → State} {r : Result}
    (h : ∀ u, r = .next u → R u (f u)) : SameOutcome R r (mapNext f r) := by
  cases r with
  | next u => exact h u rfl
  | fault g => rfl
  | refused a => rfl

theorem storeAtI_withUnread (bs : List Byte) (s : State) (b : Byte) (k : Vector Word 16) (w : WaitLatch) :
    storeAtI bs (s.withUnread b k w) = mapNext (·.withUnread b k w) (storeAtI bs s) := by
  by_cases h : s.i.toNat + bs.length - 1 < Config.memSize
  · rw [storeAtI_inside h, storeAtI_inside (s := s.withUnread b k w) h]
    rfl
  · have h' := Nat.le_of_not_lt h
    rw [storeAtI_outside h', storeAtI_outside (s := s.withUnread b k w) h']
    rfl

/-- Instructions that do not write these three parts do not read them either. -/
theorem exec_withUnread {i : Instr} (hi : ∀ p ∈ [Part.stack, .st, .wait], p ∉ mayWritePart i) (s : State) (b : Byte)
    (k : Vector Word 16) (w : WaitLatch) :
    exec i (s.withUnread b k w) = mapNext (·.withUnread b k w) (exec i s) := by
  cases i with
  | ret | call nnn | ldStVx x | ldVxK x => simp [mayWritePart] at hi
  | ldB x => exact storeAtI_withUnread _ s b k w
  | ldMemVx x => exact storeAtI_withUnread _ s b k w
  | ldVxMem x =>
    have hread : memRead (s.withUnread b k w) (s.withUnread b k w).i.toNat (x.val + 1) =
      memRead s s.i.toNat (x.val + 1) := rfl
    simp only [exec, execLdVxMem, hread]
    cases memRead s s.i.toNat (x.val + 1) <;> rfl
  | drw x y n =>
    have hread : readSprite (s.withUnread b k w) n = readSprite s n := rfl
    simp only [exec, execDrw, hread]
    cases readSprite s n <;> rfl
  | skp x =>
    have hread : readKey (s.withUnread b k w) ((s.withUnread b k w).getV x) = readKey s (s.getV x) := rfl
    simp only [exec, execSkp, hread]
    cases readKey s (s.getV x) <;> rfl
  | sknp x =>
    have hread : readKey (s.withUnread b k w) ((s.withUnread b k w).getV x) = readKey s (s.getV x) := rfl
    simp only [exec, execSknp, hread]
    cases readKey s (s.getV x) <;> rfl
  | _ => rfl

/-! ## Dead stack entries and the target of an inactive wait -/

theorem Alike.tick {s t : State} (h : Alike s t) : Alike (tick s) (tick t) := by
  unfold Machine.tick
  rw [h.active]
  split
  · exact h
  · exact { h with dt := congrArg countDown h.dt, st := congrArg countDown h.st }

theorem Alike.waitStage {s t : State} (h : Alike s t) (hw : s.wait.active = true) :
    Alike (waitStage s) (waitStage t) := by
  have hkey : firstKey t = firstKey s := by simp only [firstKey, h.key]
  unfold Machine.waitStage
  rw [hkey]
  split
  · exact { h with
      v := by simp only [State.setV, h.v, h.target hw]
      active := rfl
      target := fun ha => nomatch ha }
  · exact h

theorem Alike.eq_withUnread {s t : State} (h : Alike s t) : t = s.withUnread s.st t.stack t.wait := by
  obtain ⟨hmem, hv, hi, hpc, hsp, -, hdt, hst, hfb, hkey, -, -, hdraws⟩ := h
  cases t
  cases s
  simp_all [State.withUnread]

theorem Alike.exec_ret {s : State} {k : Vector Word 16} {w : WaitLatch} (h : Alike s (s.withUnread s.st k w)) :
    SameOutcome Alike (exec .ret s) (exec .ret (s.withUnread s.st k w)) := by
  by_cases hsp : 0 < s.sp.val
  · rw [exec_ret_live hsp, exec_ret_live (s := s.withUnread s.st k w) hsp]
    exact { h with
      pc := h.live ⟨s.sp.val - 1, by omega⟩ (Nat.sub_lt hsp Nat.one_pos)
      sp := rfl
      live := fun j hj => h.live j (Nat.lt_of_lt_of_le hj (Nat.sub_le _ _)) }
  · have hsp' : s.sp.val = 0 := Nat.eq_zero_of_not_pos hsp
    rw [exec_ret_empty hsp', exec_ret_empty (s := s.withUnread s.st k w) hsp']
    rfl

/-- The new entry of a call is live, and the same on both sides; the others are those of before. -/
theorem Alike.exec_call {s : State} {k : Vector Word 16} {w : WaitLatch} (h : Alike s (s.withUnread s.st k w))
    (nnn : Addr12) : SameOutcome Alike (exec (.call nnn) s) (exec (.call nnn) (s.withUnread s.st k w)) := by
  by_cases hsp : s.sp.val < 16
  · rw [exec_call_room nnn hsp, exec_call_room (s := s.withUnread s.st k w) nnn hsp]
    refine { h with pc := rfl, sp := rfl, live := fun j hj => ?_ }
    show (k.set s.sp.val (s.pc + 2))[j.val] = (s.stack.set s.sp.val (s.pc + 2))[j.val]
    by_cases hnew : s.sp.val = j.val
    · simp only [hnew, Vector.getElem_set_self]
    · rw [Vector.getElem_set_ne _ _ hnew, Vector.getElem_set_ne _ _ hnew]
      have hj' : j.val < s.sp.val + 1 := hj
      exact h.live j (by omega)
  · have hsp' : s.sp.val = 16 := by omega
    rw [exec_call_full nnn hsp', exec_call_full (s := s.withUnread s.st k w) nnn hsp']
    rfl

/-- An instruction that does not write the unread parts leaves them different as they were. -/
theorem Alike.exec_unread {s : State} {k : Vector Word 16} {w : WaitLatch} (h : Alike s (s.withUnread s.st k w))
    {i : Instr} (hi : ∀ p ∈ [Part.stack, .st, .wait], p ∉ mayWritePart i) :
    SameOutcome Alike (exec i s) (exec i (s.withUnread s.st k w)) := by
  rw [exec_withUnread hi]
  refine sameOutcome_mapNext fun u hu => ?_
  obtain ⟨hstack, hst, hwait⟩ : .stack ∉ mayWritePart i ∧ .st ∉ mayWritePart i ∧ .wait ∉ mayWritePart i := by
    simpa using hi
  have hfields := exec_sameFields hu
  have hsp := hfields.sp.resolve_left (by simpa using hstack)
  have hentries := hfields.stack.resolve_left (by simpa using hstack)
  have htimer := hfields.st.resolve_left (by simpa using hst)
  have hlatch := hfields.wait.resolve_left (by simpa using hwait)
  exact {
    mem := rfl, v := rfl, i := rfl, pc := rfl, sp := rfl, dt := rfl, fb := rfl, key := rfl, draws := rfl
    st := htimer.symm
    live := by
      rw [hsp, hentries]
      exact h.live
    active := by
      rw [hlatch]
      exact h.active
    target := by
      rw [hlatch]
      exact h.target }

theorem Alike.exec {s t : State} (h : Alike s t) (i : Instr) : SameOutcome Alike (exec i s) (exec i t) := by
  have ht := h.eq_withUnread
  generalize t.stack = k, t.wait = w at ht
  subst ht
  cases i with
  | ret => exact h.exec_ret
  | call nnn => exact h.exec_call nnn
  | ldStVx x => exact { h with pc := rfl, st := rfl }
  | ldVxK x => exact { h with pc := rfl, active := rfl, target := fun _ => rfl }
  | _ => exact h.exec_unread (by simp [mayWritePart])

/-- Settles O54: the stages of the two steps agree one by one, since none reads an unobservable part. -/
theorem deadStackEntriesAreUnobservable : Obligations.DeadStackEntriesAreUnobservable :=
  fun _ _ h => step_sameOutcome h.active h.waitStage h.pc h.mem h.exec fun _ _ => Alike.tick

/-! ## The sound timer -/

/-- The second state is the first with some sound timer. -/
def DiffersInSt (s t : State) : Prop := ∃ b, t = { s with st := b }

theorem DiffersInSt.sameBut {s t : State} (h : DiffersInSt s t) : SameBut [.st] s t := by
  obtain ⟨b, rfl⟩ := h
  exact SameFields.sameBut {}

theorem DiffersInSt.tick {s t : State} (h : DiffersInSt s t) : DiffersInSt (tick s) (tick t) := by
  obtain ⟨b, rfl⟩ := h
  cases hw : s.wait.active with
  | true =>
    rw [tick_waiting hw, tick_waiting (s := { s with st := b }) hw]
    exact ⟨b, rfl⟩
  | false =>
    rw [tick_running hw, tick_running (s := { s with st := b }) hw]
    exact ⟨countDown b, rfl⟩

theorem differsInSt_waitStage (s : State) (b : Byte) : DiffersInSt (waitStage s) (waitStage { s with st := b }) := by
  have hkey : firstKey { s with st := b } = firstKey s := rfl
  simp only [waitStage, hkey]
  cases firstKey s with
  | none => exact ⟨b, rfl⟩
  | some k => exact ⟨b, rfl⟩

/-- An instruction that writes neither `ST` nor the stack nor the wait latch carries the sound timer along. -/
theorem differsInSt_exec_unread (s : State) (b : Byte) {i : Instr}
    (hi : ∀ p ∈ [Part.stack, .st, .wait], p ∉ mayWritePart i) :
    SameOutcome DiffersInSt (exec i s) (exec i { s with st := b }) := by
  rw [show ({ s with st := b } : State) = s.withUnread b s.stack s.wait from rfl, exec_withUnread hi]
  refine sameOutcome_mapNext fun u hu => ⟨b, ?_⟩
  obtain ⟨hstack, -, hwait⟩ : .stack ∉ mayWritePart i ∧ .st ∉ mayWritePart i ∧ .wait ∉ mayWritePart i := by
    simpa using hi
  have hfields := exec_sameFields hu
  rw [← hfields.stack.resolve_left (by simpa using hstack), ← hfields.wait.resolve_left (by simpa using hwait)]
  rfl

theorem differsInSt_exec (s : State) (b : Byte) (i : Instr) :
    SameOutcome DiffersInSt (exec i s) (exec i { s with st := b }) := by
  cases i with
  | ret =>
    by_cases hsp : 0 < s.sp.val
    · rw [exec_ret_live hsp, exec_ret_live (s := { s with st := b }) hsp]
      exact ⟨b, rfl⟩
    · have hsp' : s.sp.val = 0 := Nat.eq_zero_of_not_pos hsp
      rw [exec_ret_empty hsp', exec_ret_empty (s := { s with st := b }) hsp']
      rfl
  | call nnn =>
    by_cases hsp : s.sp.val < 16
    · rw [exec_call_room nnn hsp, exec_call_room (s := { s with st := b }) nnn hsp]
      exact ⟨b, rfl⟩
    · have hsp' : s.sp.val = 16 := by omega
      rw [exec_call_full nnn hsp', exec_call_full (s := { s with st := b }) nnn hsp']
      rfl
  | ldStVx x => exact ⟨s.getV x, rfl⟩
  | ldVxK x => exact ⟨b, rfl⟩
  | _ => exact differsInSt_exec_unread s b (by simp [mayWritePart])

/-- Settles O55: the stages of the two steps agree one by one, since none reads `ST` but to count it down. -/
theorem soundTimerChangesNothingElse : Obligations.SoundTimerChangesNothingElse := by
  intro s b
  have h : SameOutcome DiffersInSt (step s) (step { s with st := b }) :=
    step_sameOutcome rfl (fun _ => differsInSt_waitStage s b) rfl rfl (differsInSt_exec s b)
      fun _ _ => DiffersInSt.tick
  exact h.mono fun _ _ => DiffersInSt.sameBut

end Sys2Proof.Machine
end

section
/-! PROOFS. Control flow (41_control_flow.md R100 to R109). -/

namespace Sys2Proof.Machine

/-! ## No-op and skips (R100, R105 to R108) -/

theorem sameBut_advance (s : State) : SameBut [.pc] s (advance s) := SameFields.sameBut {}

theorem sameBut_skipIf (b : Bool) (s : State) : SameBut [.pc] s (skipIf b s) := SameFields.sameBut {}

theorem sameBut_jumpTo (s : State) (w : Word) : SameBut [.pc] s (jumpTo s w) := SameFields.sameBut {}

theorem encodedAs_sys {nnn : Addr12} (h : (Instr.sys nnn).WellFormed) : EncodedAs (.sys nnn) 0xF000#16 0x0000#16 := by
  obtain ⟨r, hr, hit, -⟩ := Laws.RowOfEncoding.sys nnn
  obtain rfl := Option.some.inj hr
  exact ⟨beq_iff_eq.mp hit, decodeWord_encode_sys h⟩

/-- Settles O22: the execute stage advances `PC`, and the tick of the step writes the timers only. -/
theorem noOpOnlyAdvances : Obligations.NoOpOnlyAdvances := by
  intro nnn s
  have hexec : exec (.sys nnn) s = .next (advance s) := rfl
  refine ⟨⟨_, hexec, rfl, sameBut_advance s⟩, fun hcls hret => ?_⟩
  have henc := encodedAs_sys (sys_wellFormed.mpr ⟨hcls, hret⟩)
  refine ⟨henc, fun hw hf => ⟨_, step_fetched hw hf henc.2 hexec, ?_⟩⟩
  rw [tick_running (s := advance s) hw]
  exact ⟨rfl, countDown_toNat _, countDown_toNat _, SameFields.sameBut {}⟩

theorem exec_seImm (x : Reg) (kk : Byte) (s : State) : exec (.seImm x kk) s = .next (skipIf (s.getV x == kk) s) := rfl

theorem exec_sneImm (x : Reg) (kk : Byte) (s : State) : exec (.sneImm x kk) s = .next (skipIf (s.getV x != kk) s) :=
  rfl

theorem exec_seReg (x y : Reg) (s : State) : exec (.seReg x y) s = .next (skipIf (s.getV x == s.getV y) s) := rfl

theorem exec_sneReg (x y : Reg) (s : State) : exec (.sneReg x y) s = .next (skipIf (s.getV x != s.getV y) s) := rfl

theorem skipIf_eq_pc (a b : Byte) (s : State) :
    (skipIf (a == b) s).pc = if a = b then s.pc + 4 else s.pc + 2 := by
  simp

theorem skipIf_ne_pc (a b : Byte) (s : State) :
    (skipIf (a != b) s).pc = if a = b then s.pc + 2 else s.pc + 4 := by
  simp

/-- Families 5 and 9 have the minor opcode 0 only (R67). -/
theorem decodeWord_five_nine_invalid (x y : Reg) {n : Nibble} (hn : n ≠ 0) :
    decodeWord (wordXYN 0x5 x y n) = none ∧ decodeWord (wordXYN 0x9 x y n) = none := by
  have hn' : n.toNat ≠ 0 := fun e => hn (BitVec.eq_of_toNat_eq e)
  have hnlt := n.isLt
  have hx := x.isLt
  have hy := y.isLt
  constructor
  · refine (invalidWordsAreExactlyTheListedOnes _).mpr (.inl ?_)
    rw [wordXYN_toNat, show (0x5 : Nibble).toNat = 5 from rfl]
    omega
  · refine (invalidWordsAreExactlyTheListedOnes _).mpr (.inr (.inr (.inl ?_)))
    rw [wordXYN_toNat, show (0x9 : Nibble).toNat = 9 from rfl]
    omega

/-- Settles O28: the four skips are one operation under four conditions. -/
theorem registerSkipsMoveThePc : Obligations.RegisterSkipsMoveThePc := by
  intro x y kk s
  refine ⟨⟨encodedAs_of_row (Laws.RowOfEncoding.seImm x kk) rfl (by decide), _, exec_seImm x kk s, skipIf_eq_pc _ _ s,
      sameBut_skipIf _ s⟩,
    ⟨encodedAs_of_row (Laws.RowOfEncoding.sneImm x kk) rfl (by decide), _, exec_sneImm x kk s, skipIf_ne_pc _ _ s,
      sameBut_skipIf _ s⟩,
    ⟨encodedAs_of_row (Laws.RowOfEncoding.seReg x y) rfl (by decide), _, exec_seReg x y s, skipIf_eq_pc _ _ s,
      sameBut_skipIf _ s⟩,
    ⟨encodedAs_of_row (Laws.RowOfEncoding.sneReg x y) rfl (by decide), _, exec_sneReg x y s, skipIf_ne_pc _ _ s,
      sameBut_skipIf _ s⟩,
    fun n => decodeWord_five_nine_invalid x y⟩

/-! ## Call and return (R101, R103) -/

/-- Settles O23: with a live entry the pop answers it and lowers `SP`, and no entry is written. -/
theorem returnPopsTheNewestEntry : Obligations.ReturnPopsTheNewestEntry := by
  refine ⟨encodedAs_of_row Laws.RowOfEncoding.ret rfl (by decide), fun s => ⟨fun k hk => ?_, exec_ret_empty⟩⟩
  have hsp : s.sp.val - 1 = k.val := by omega
  refine ⟨_, exec_ret_live (by omega), hsp, ?_, fun _ => rfl, SameFields.sameBut {}⟩
  simp [hsp]

/-- Settles O25: with room the push writes the entry at `SP` only. -/
theorem callPushesAndJumps : Obligations.CallPushesAndJumps := by
  intro nnn s
  refine ⟨encodedAs_of_row (Laws.RowOfEncoding.call nnn) rfl (by decide), fun k hk => ?_, exec_call_full nnn⟩
  refine ⟨_, exec_call_room nnn (by omega), by simp [hk], zext12_toNat nnn, by simp [hk], fun j hj => ?_,
    SameFields.sameBut {}⟩
  exact Vector.getElem_set_ne (by omega) j.isLt fun e => hj (Fin.ext (e.symm.trans hk.symm))

/-- Settles O26: the call's entry is the newest one of any state with the call's live entries. -/
theorem callThenReturnComesBack : Obligations.CallThenReturnComesBack := by
  intro nnn s t u hcall husp hlive
  obtain ⟨hsp, -⟩ := exec_call_next hcall
  obtain ⟨t', ht', htsp, -, hentry, hothers, -⟩ := (callPushesAndJumps nnn s).2.1 ⟨s.sp.val, hsp⟩ rfl
  obtain rfl := Host.Outcome.next.inj (hcall.symm.trans ht')
  have hu : s.sp.val + 1 = u.sp.val := by rw [husp, htsp]
  obtain ⟨v, hv, hvsp, hvpc, hvstack, hframe⟩ := (returnPopsTheNewestEntry.2 u).1 ⟨s.sp.val, hsp⟩ hu
  have hlast : s.sp.val < t.sp.val := by rw [htsp]; exact Nat.lt_succ_self _
  refine ⟨v, hv, ?_, Fin.ext hvsp, fun k hk => ?_, ?_⟩
  · rw [hvpc, hlive _ hlast, hentry]
  · rw [hvstack, hlive k (hk.trans hlast), hothers k fun e => hk.ne (congrArg Fin.val e)]
  · exact hframe

/-! ## Jumps (R102, R104) -/

theorem exec_jp (nnn : Addr12) (s : State) : exec (.jp nnn) s = .next (jumpTo s (zext12 nnn)) := rfl

theorem exec_jpV0 (nnn : Addr12) (s : State) :
    exec (.jpV0 nnn) s = .next (jumpTo s (zext12 nnn + zext8 (s.getV 0))) := rfl

theorem encodedAs_jp (nnn : Addr12) : EncodedAs (.jp nnn) 0xF000#16 0x1000#16 :=
  encodedAs_of_row (Laws.RowOfEncoding.jp nnn) rfl (by decide)

/-- Settles O27: the sum of 16-bit numbers does not wrap. -/
theorem jumpWithOffsetAddsV0 : Obligations.JumpWithOffsetAddsV0 := by
  intro nnn s
  exact ⟨encodedAs_of_row (Laws.RowOfEncoding.jpV0 nnn) rfl (by decide), _, exec_jpV0 nnn s, zext12_add_zext8_toNat nnn _,
    sameBut_jumpTo s _⟩

/-- A step that fetches a jump to its own address changes the timers only (R238). -/
theorem step_self_jump {s : State} {nnn : Addr12} (hw : s.wait.active = false)
    (hf : fetchWord s = .ok (encode (.jp nnn))) (hpc : zext12 nnn = s.pc) : step s = .next (tick s) := by
  rw [step_fetched hw hf (encodedAs_jp nnn).2 (exec_jp nnn s), hpc]
  rfl

/-- What a tick outside a wait does to the timers, and that it does nothing else. -/
theorem tick_running_timers {s : State} (hw : s.wait.active = false) :
    SameBut [.dt, .st] s (tick s) ∧ (tick s).dt.toNat = s.dt.toNat - 1 ∧ (tick s).st.toNat = s.st.toNat - 1 := by
  refine ⟨(sameFields_tick s).sameBut, ?_, ?_⟩
  · rw [tick_running hw]
    exact countDown_toNat _
  · rw [tick_running hw]
    exact countDown_toNat _

/-- Settles O24: only 0xFFF is a target whose word does not lie in memory. -/
theorem jumpSetsThePcExactly : Obligations.JumpSetsThePcExactly := by
  intro nnn s
  have htarget := zext12_toNat nnn
  refine ⟨encodedAs_jp nnn, _, exec_jp nnn s, htarget, sameBut_jumpTo s _, fun hw => ⟨?_, fun hne => ?_, fun hf hpc => ?_⟩⟩
  · rintro rfl
    exact step_fetch_error hw (fetchWord_outside (s := jumpTo s (zext12 0xFFF#12))
      (show Config.memSize ≤ (zext12 0xFFF#12).toNat + 1 by decide))
  · have hne' : nnn.toNat ≠ 0xFFF := fun e => hne (BitVec.eq_of_toNat_eq e)
    have := nnn.isLt
    exact ⟨_, fetchWord_inside (s := jumpTo s (zext12 nnn)) (by simp only [jumpTo_pc, htarget, Config.memSize]; omega)⟩
  · have hself : zext12 nnn = s.pc := BitVec.eq_of_toNat_eq (htarget.trans hpc.symm)
    exact ⟨_, step_self_jump hw hf hself, tick_running_timers hw⟩

/-- Settles O56: the jump to itself leaves `PC` and memory, so the state is at the self-loop again. -/
theorem selfLoopOnlyTicks : Obligations.SelfLoopOnlyTicks := by
  rintro s ⟨hw, nnn, hf, hself⟩
  refine ⟨_, step_self_jump hw hf hself, ⟨?_, nnn, ?_, ?_⟩, tick_running_timers hw⟩
  · rw [tick_wait, hw]
  · simpa only [fetchWord, memError, State.byteAt, tick_pc, tick_mem] using hf
  · rw [tick_pc, hself]

end Sys2Proof.Machine
end

section
/-! PROOFS. The register ALU: logic, flags, shifts and the random value (42_alu.md R123 to R131). -/

namespace Sys2Proof.Machine

/-! ## Two writes: a result and a flag (R85) -/

/-- Result first, flag last: the flag is the last write of `VF`. -/
theorem writeResultThenFlag_next (x : Reg) (result flag : Byte) (s : State) :
    ∃ t, writeResultThenFlag x result flag s = .next t ∧ (x ≠ 15 → t.getV x = result) ∧ t.getV 15 = flag ∧
      (∀ r, r ≠ x → r ≠ 15 → t.getV r = s.getV r) ∧ t.pc = s.pc + 2 ∧ SameBut [.v, .pc] s t := by
  refine ⟨_, rfl, fun hx => ?_, State.getV_setV_self _ _ _, fun r hx hf => ?_, rfl, SameFields.sameBut {}⟩
  · exact (State.getV_setV_ne hx flag).trans (State.getV_setV_self s x result)
  · exact (State.getV_setV_ne hf flag).trans (State.getV_setV_ne hx result)

/-- Flag first, result last: the result is the last write of `V[x]`. -/
theorem writeFlagThenResult_next (x : Reg) (flag result : Byte) (s : State) :
    ∃ t, writeFlagThenResult x flag result s = .next t ∧ t.getV x = result ∧ (x ≠ 15 → t.getV 15 = flag) ∧
      (∀ r, r ≠ x → r ≠ 15 → t.getV r = s.getV r) ∧ t.pc = s.pc + 2 ∧ SameBut [.v, .pc] s t := by
  refine ⟨_, rfl, State.getV_setV_self _ _ _, fun hx => ?_, fun r hx hf => ?_, rfl, SameFields.sameBut {}⟩
  · exact (State.getV_setV_ne (Ne.symm hx) result).trans (State.getV_setV_self s 15 flag)
  · exact (State.getV_setV_ne hx result).trans (State.getV_setV_ne hf flag)

/-! ## Values (R126 to R132) -/

theorem flagByte_toNat (b : Bool) : (flagByte b).toNat = if b then 1 else 0 := by
  cases b <;> rfl

theorem carryFlag_toNat (a b : Byte) : (carryFlag a b).toNat = if a.toNat + b.toNat > 255 then 1 else 0 := by
  simp only [carryFlag, flagByte_toNat, decide_eq_true_eq]

theorem noBorrowFlag_toNat (a b : Byte) : (noBorrowFlag a b).toNat = if a.toNat ≥ b.toNat then 1 else 0 := by
  simp only [noBorrowFlag, flagByte_toNat, decide_eq_true_eq]

/-- The difference of two bytes is their difference over the integers modulo 256 (R132). -/
theorem subBytes_toNat (a b : Byte) : ((subBytes a b).toNat : Int) = (a.toNat - b.toNat : Int) % 256 := by
  rw [subBytes, BitVec.toNat_ofInt]
  omega

theorem lowBitFlag_toNat (a : Byte) : (lowBitFlag a).toNat = a.toNat % 2 := by
  rw [lowBitFlag, BitVec.toNat_and]
  exact Nat.and_one_is_mod _

theorem highBitFlag_toNat (a : Byte) : (highBitFlag a).toNat = a.toNat / 128 := by
  rw [highBitFlag, BitVec.toNat_ushiftRight, Nat.shiftRight_eq_div_pow]

theorem shiftRight_one_toNat (a : Byte) : (a >>> 1).toNat = a.toNat / 2 := by
  rw [BitVec.toNat_ushiftRight, Nat.shiftRight_eq_div_pow]

theorem shiftLeft_one_toNat (a : Byte) : (a <<< 1).toNat = a.toNat * 2 % 256 := by
  rw [BitVec.toNat_shiftLeft, Nat.shiftLeft_eq]

/-! ## The instructions -/

theorem exec_orReg (x y : Reg) (s : State) : exec (.orReg x y) s = writeReg x (s.getV x ||| s.getV y) s := rfl

theorem exec_andReg (x y : Reg) (s : State) : exec (.andReg x y) s = writeReg x (s.getV x &&& s.getV y) s := rfl

theorem exec_xorReg (x y : Reg) (s : State) : exec (.xorReg x y) s = writeReg x (s.getV x ^^^ s.getV y) s := rfl

theorem exec_addReg (x y : Reg) (s : State) : exec (.addReg x y) s =
    writeResultThenFlag x (addBytes (s.getV x) (s.getV y)) (carryFlag (s.getV x) (s.getV y)) s := rfl

theorem exec_subReg (x y : Reg) (s : State) : exec (.subReg x y) s =
    writeResultThenFlag x (subBytes (s.getV x) (s.getV y)) (noBorrowFlag (s.getV x) (s.getV y)) s := rfl

theorem exec_subnReg (x y : Reg) (s : State) : exec (.subnReg x y) s =
    writeResultThenFlag x (subBytes (s.getV y) (s.getV x)) (noBorrowFlag (s.getV y) (s.getV x)) s := rfl

theorem exec_shrReg (x y : Reg) (s : State) : exec (.shrReg x y) s =
    writeFlagThenResult x (lowBitFlag (s.getV x)) (s.getV x >>> 1) s := rfl

theorem exec_shlReg (x y : Reg) (s : State) : exec (.shlReg x y) s =
    writeFlagThenResult x (highBitFlag (s.getV x)) (s.getV x <<< 1) s := rfl

/-- Settles O31: each is one register write, of the operation on the two bytes. -/
theorem logicWorksBitByBit : Obligations.LogicWorksBitByBit := by
  intro x y s
  refine ⟨⟨encodedAs_of_row (Laws.RowOfEncoding.orReg x y) rfl (by decide), ?_⟩,
    ⟨encodedAs_of_row (Laws.RowOfEncoding.andReg x y) rfl (by decide), ?_⟩,
    ⟨encodedAs_of_row (Laws.RowOfEncoding.xorReg x y) rfl (by decide), ?_⟩⟩
  · obtain ⟨t, hnext, hx, hframe⟩ := writeReg_next x (s.getV x ||| s.getV y) s
    exact ⟨t, (exec_orReg x y s).trans hnext, fun j => by rw [hx, BitVec.getLsbD_or], hframe⟩
  · obtain ⟨t, hnext, hx, hframe⟩ := writeReg_next x (s.getV x &&& s.getV y) s
    exact ⟨t, (exec_andReg x y s).trans hnext, fun j => by rw [hx, BitVec.getLsbD_and], hframe⟩
  · obtain ⟨t, hnext, hx, hframe⟩ := writeReg_next x (s.getV x ^^^ s.getV y) s
    exact ⟨t, (exec_xorReg x y s).trans hnext, fun j => by rw [hx, BitVec.getLsbD_xor], hframe⟩

/-- Settles O32: the flag is written after the sum, both from the values before the instruction. -/
theorem addSetsCarry : Obligations.AddSetsCarry := by
  intro x y s
  obtain ⟨t, hnext, hx, hf, hframe⟩ :=
    writeResultThenFlag_next x (addBytes (s.getV x) (s.getV y)) (carryFlag (s.getV x) (s.getV y)) s
  refine ⟨encodedAs_of_row (Laws.RowOfEncoding.addReg x y) rfl (by decide), t, (exec_addReg x y s).trans hnext,
    fun hne => ?_, ?_, hframe⟩
  · rw [hx hne, addBytes_toNat]
  · rw [hf, carryFlag_toNat]

/-- A difference and its flag, written in this order. -/
theorem writeDifference_next (x : Reg) (a b : Byte) (s : State) :
    ∃ t, writeResultThenFlag x (subBytes a b) (noBorrowFlag a b) s = .next t ∧
      (x ≠ 15 → ((t.getV x).toNat : Int) = (a.toNat - b.toNat : Int) % 256) ∧
      (t.getV 15).toNat = (if a.toNat ≥ b.toNat then 1 else 0) ∧
      (∀ r, r ≠ x → r ≠ 15 → t.getV r = s.getV r) ∧ t.pc = s.pc + 2 ∧ SameBut [.v, .pc] s t := by
  obtain ⟨t, hnext, hx, hf, hframe⟩ := writeResultThenFlag_next x (subBytes a b) (noBorrowFlag a b) s
  refine ⟨t, hnext, fun hne => ?_, ?_, hframe⟩
  · rw [hx hne, subBytes_toNat]
  · rw [hf, noBorrowFlag_toNat]

/-- Settles O33: the two subtractions are one write of a difference and its flag, with the operands exchanged. -/
theorem subtractionsSetNoBorrow : Obligations.SubtractionsSetNoBorrow := by
  intro x y s
  rw [exec_subReg, exec_subnReg]
  exact ⟨⟨encodedAs_of_row (Laws.RowOfEncoding.subReg x y) rfl (by decide), writeDifference_next x _ _ s⟩,
    ⟨encodedAs_of_row (Laws.RowOfEncoding.subnReg x y) rfl (by decide), writeDifference_next x _ _ s⟩⟩

/-- Settles O34: the flag is written before the shifted value. -/
theorem shiftsMoveOneBit : Obligations.ShiftsMoveOneBit := by
  intro x y s
  refine ⟨⟨encodedAs_of_row (Laws.RowOfEncoding.shrReg x y) rfl (by decide), ?_⟩,
    ⟨encodedAs_of_row (Laws.RowOfEncoding.shlReg x y) rfl (by decide), ?_⟩⟩
  · obtain ⟨t, hnext, hx, hf, hframe⟩ := writeFlagThenResult_next x (lowBitFlag (s.getV x)) (s.getV x >>> 1) s
    refine ⟨t, (exec_shrReg x y s).trans hnext, ?_, fun hne => ?_, hframe⟩
    · rw [hx, shiftRight_one_toNat]
    · rw [hf hne, lowBitFlag_toNat]
  · obtain ⟨t, hnext, hx, hf, hframe⟩ := writeFlagThenResult_next x (highBitFlag (s.getV x)) (s.getV x <<< 1) s
    refine ⟨t, (exec_shlReg x y s).trans hnext, ?_, fun hne => ?_, hframe⟩
    · rw [hx, shiftLeft_one_toNat]
    · rw [hf hne, highBitFlag_toNat]

theorem exec_rnd (x : Reg) (kk : Byte) (s : State) : exec (.rnd x kk) s =
    .next (advance { s.setV x (BitVec.ofNat 8 (Config.draw s.draws kk).val) with draws := s.draws + 1 }) := rfl

/-- A draw is at most its immediate, so it is a byte. -/
theorem draw_toNat_le (k : Nat) (kk : Byte) : (BitVec.ofNat 8 (Config.draw k kk).val).toNat ≤ kk.toNat := by
  rw [BitVec.toNat_ofNat]
  exact (Nat.mod_le _ _).trans (Nat.le_of_lt_succ (Config.draw k kk).isLt)

/-- Settles O35: whatever is drawn is written. -/
theorem randomValueStaysInItsRange : Obligations.RandomValueStaysInItsRange := by
  intro x kk s
  refine ⟨encodedAs_of_row (Laws.RowOfEncoding.rnd x kk) rfl (by decide), _, exec_rnd x kk s, ?_, rfl, fun r hr => ?_,
    rfl, SameFields.sameBut {}⟩
  · exact (congrArg BitVec.toNat (State.getV_setV_self s x _)).trans_le (draw_toNat_le s.draws kk)
  · exact State.getV_setV_ne hr _

end Sys2Proof.Machine
end

section
/-! PROOFS. The index register's arithmetic (43_index_memory.md R141, R142). -/

namespace Sys2Proof.Machine

theorem exec_addI (x : Reg) (s : State) : exec (.addI x) s =
    .next (advance ({ s with i := addIndex s.i (s.getV x) }.setV vf (indexOverflowFlag s.i (s.getV x)))) := rfl

theorem indexOverflowFlag_toNat (i : Word) (a : Byte) :
    (indexOverflowFlag i a).toNat = if i.toNat + a.toNat > 4095 then 1 else 0 := by
  simp only [indexOverflowFlag, flagByte_toNat, decide_eq_true_eq]

/-- Settles O37: the flag is the last write, of the unbounded sum's overflow. -/
theorem addToIndexWrapsAndFlags : Obligations.AddToIndexWrapsAndFlags := by
  intro x s
  refine ⟨encodedAs_of_row (Laws.RowOfEncoding.addI x) rfl (by decide), _, exec_addI x s, addIndex_toNat _ _, ?_,
    fun r hr => State.getV_setV_ne hr _, rfl, SameFields.sameBut {}⟩
  exact (congrArg BitVec.toNat (State.getV_setV_self _ vf _)).trans (indexOverflowFlag_toNat _ _)

theorem exec_ldF (x : Reg) (s : State) : exec (.ldF x) s = .next (advance { s with i := glyphAddress (s.getV x) }) :=
  rfl

/-- Settles O38: five times a byte fits in 16 bits, so the address is not reduced. -/
theorem glyphAddressIsFiveTimesTheDigit : Obligations.GlyphAddressIsFiveTimesTheDigit := by
  intro x s
  exact ⟨encodedAs_of_row (Laws.RowOfEncoding.ldF x) rfl (by decide), _, exec_ldF x s, glyphAddress_toNat _, rfl,
    sameBut_advance_setI s _⟩

end Sys2Proof.Machine
end

section
/-! PROOFS. The memory transfers at `I` (43_index_memory.md R143 to R145; 20_memory.md R53). -/

namespace Sys2Proof.Machine

/-- What a store at `I` that lies in memory does: its bytes, `PC`, and nothing else. -/
theorem storeAtI_frame {s t : State} {bs : List Byte} (h : storeAtI bs s = .next t) :
    SameBytesOutside s.i.toNat bs.length s t ∧ t.pc = s.pc + 2 ∧ SameBut [.mem, .pc] s t := by
  refine ⟨fun q hq => storeAtI_byteAt_other h hq, ?_⟩
  obtain ⟨-, rfl⟩ := storeAtI_next h
  exact ⟨rfl, SameFields.sameBut {}⟩

/-- Settles O39: the digits of a byte, each below 10, are its three bytes stored. -/
theorem decimalDigitsAreStoredAtI : Obligations.DecimalDigitsAreStoredAtI := by
  intro x s
  refine ⟨encodedAs_of_row (Laws.RowOfEncoding.ldB x) rfl (by decide), fun hi => ?_, fun hi =>
    (exec_ldB x s).trans (storeAtI_outside hi)⟩
  obtain ⟨t, hnext⟩ : ∃ t, storeAtI (decimalDigits (s.getV x)) s = .next t := ⟨_, storeAtI_inside hi⟩
  have hbyte := storeAtI_byteAt hnext
  have hx := (s.getV x).isLt
  have hhundreds : (t.byteAt s.i.toNat).toNat = (s.getV x).toNat / 100 := by
    rw [← Nat.add_zero s.i.toNat, hbyte 0 (by simp)]
    exact Nat.mod_eq_of_lt (by omega)
  have htens : (t.byteAt (s.i.toNat + 1)).toNat = (s.getV x).toNat / 10 % 10 := by
    rw [hbyte 1 (by simp)]
    exact Nat.mod_eq_of_lt (by omega)
  have hunits : (t.byteAt (s.i.toNat + 2)).toNat = (s.getV x).toNat % 10 := by
    rw [hbyte 2 (by simp)]
    exact Nat.mod_eq_of_lt (by omega)
  exact ⟨t, (exec_ldB x s).trans hnext, by omega, by omega, by omega, by omega, storeAtI_frame hnext⟩

/-- The registers a store of registers at `I` has put into memory. -/
theorem storeRegisters_byteAt {x r : Reg} {s t : State} (h : exec (.ldMemVx x) s = .next t) (hr : r ≤ x) :
    t.byteAt (s.i.toNat + r.val) = s.getV r := by
  have hlen : r.val < (registerRun s x).length := by
    rw [registerRun_length]
    exact Nat.lt_succ_of_le hr
  exact (storeAtI_byteAt ((exec_ldMemVx x s).symm.trans h) r.val hlen).trans (registerRun_getElem s x r hlen)

/-- Settles O40: the run of registers is what is stored. -/
theorem registersAreStoredAtI : Obligations.RegistersAreStoredAtI := by
  intro x s
  refine ⟨encodedAs_of_row (Laws.RowOfEncoding.ldMemVx x) rfl (by decide), fun hi => ?_, exec_ldMemVx_outside⟩
  have hnext := exec_ldMemVx_inside hi
  obtain ⟨hbytes, hframe⟩ := storeAtI_frame ((exec_ldMemVx x s).symm.trans hnext)
  rw [registerRun_length] at hbytes
  exact ⟨_, hnext, fun r hr => storeRegisters_byteAt hnext hr, hbytes, hframe⟩

/-- Settles O41: the bytes of the run are what is loaded. -/
theorem registersAreLoadedFromI : Obligations.RegistersAreLoadedFromI := by
  intro x s
  refine ⟨encodedAs_of_row (Laws.RowOfEncoding.ldVxMem x) rfl (by decide), fun hi => ?_, exec_ldVxMem_outside⟩
  refine ⟨_, exec_ldVxMem_inside hi, fun r hr => ?_, fun r hr => ?_, rfl, SameFields.sameBut {}⟩
  · exact (getV_loadRun s x r).trans (if_pos hr)
  · exact (getV_loadRun s x r).trans (if_neg (Fin.not_le.mpr hr))

/-- A store of registers that completes lies in memory. -/
theorem storeRegisters_inside {x : Reg} {s t : State} (h : exec (.ldMemVx x) s = .next t) :
    s.i.toNat + x.val < 4096 := by
  by_contra hi
  rw [exec_ldMemVx_outside (Nat.le_of_not_lt hi)] at h
  cases h

/-- Settles O42: the load reads at the addresses the store wrote. -/
theorem storedRegistersAreLoadedBack : Obligations.StoredRegistersAreLoadedBack := by
  intro x s t u hstore hi hmem
  have hin : u.i.toNat + x.val < 4096 := by
    rw [hi]
    exact storeRegisters_inside hstore
  obtain ⟨v, hv, hloaded, hkept, -⟩ := (registersAreLoadedFromI x u).2.1 hin
  refine ⟨v, hv, fun r hr => ?_, hkept⟩
  rw [hloaded r hr, hmem, hi, storeRegisters_byteAt hstore hr]

/-- Settles O43: the fetch reads the two bytes the store wrote at its `PC`. -/
theorem storedWordIsFetchedNext : Obligations.StoredWordIsFetchedNext := by
  intro x r q s t hstore hq hqx hpc
  have hin := storeRegisters_inside hstore
  have hqx' : q.val ≤ x.val := hqx
  have hlow : t.byteAt (t.pc.toNat + 1) = s.getV q := by
    rw [hpc, Nat.add_assoc, ← hq, storeRegisters_byteAt hstore hqx]
  have hhigh : t.byteAt t.pc.toNat = s.getV r := by
    rw [hpc, storeRegisters_byteAt hstore (Fin.le_def.mpr (by omega))]
  refine ⟨_, fetchWord_inside (by simp only [Config.memSize]; omega), ?_⟩
  rw [joinBytes_toNat, hhigh, hlow]

end Sys2Proof.Machine
end

section
/-! PROOFS. Keys and timers (45_keys_timers.md R170 to R175). -/

namespace Sys2Proof.Machine

theorem skipIf_not_pc (b : Bool) (s : State) :
    (skipIf (!b) s).pc = if b = true then s.pc + 2 else s.pc + 4 := by
  cases b <;> rfl

/-- Settles O47: the skip's condition is the key's latch, read where the key exists. -/
theorem keySkipsReadTheLatch : Obligations.KeySkipsReadTheLatch := by
  intro x s
  refine ⟨encodedAs_of_row (Laws.RowOfEncoding.skp x) rfl (by decide),
    encodedAs_of_row (Laws.RowOfEncoding.sknp x) rfl (by decide), fun k hk => ⟨?_, ?_⟩,
    fun hx => ⟨exec_skp_absent hx, exec_sknp_absent hx⟩⟩
  · refine ⟨_, exec_skp_exists (by omega), ?_, sameBut_skipIf _ s⟩
    simp only [skipIf_pc, hk, Fin.getElem_fin]
  · refine ⟨_, exec_sknp_exists (by omega), ?_, sameBut_skipIf _ s⟩
    simp only [skipIf_not_pc, hk, Fin.getElem_fin]

theorem exec_ldVxK (x : Reg) (s : State) :
    exec (.ldVxK x) s = .next (advance { s with wait := { active := true, target := x } }) := rfl

/-- Settles O48: the latch it sets keeps its own step from ticking. -/
theorem waitForKeySetsTheLatch : Obligations.WaitForKeySetsTheLatch := by
  intro x s
  have henc : EncodedAs (.ldVxK x) 0xF0FF#16 0xF00A#16 :=
    encodedAs_of_row (Laws.RowOfEncoding.ldVxK x) rfl (by decide)
  have hframe : SameBut [.wait, .pc] s (advance { s with wait := { active := true, target := x } }) :=
    SameFields.sameBut {}
  refine ⟨henc, ⟨_, exec_ldVxK x s, rfl, rfl, hframe⟩, fun hw hf => ?_⟩
  have hstep := step_fetched hw hf henc.2 (exec_ldVxK x s)
  rw [tick_waiting (s := advance { s with wait := { active := true, target := x } }) rfl] at hstep
  exact ⟨_, hstep, rfl, rfl, hframe⟩

theorem exec_ldVxDt (x : Reg) (s : State) : exec (.ldVxDt x) s = writeReg x s.dt s := rfl

theorem tick_getV (s : State) (r : Reg) : (tick s).getV r = s.getV r := by
  simp only [State.getV, tick_v]

/-- Settles O49: the register is written before the tick. -/
theorem delayTimerIsReadBeforeTheTick : Obligations.DelayTimerIsReadBeforeTheTick := by
  intro x s
  have henc : EncodedAs (.ldVxDt x) 0xF0FF#16 0xF007#16 :=
    encodedAs_of_row (Laws.RowOfEncoding.ldVxDt x) rfl (by decide)
  obtain ⟨t, hnext, hx, hother, hpc, hframe⟩ := writeReg_next x s.dt s
  have hexec : exec (.ldVxDt x) s = .next t := (exec_ldVxDt x s).trans hnext
  refine ⟨henc, ⟨t, hexec, hx, hother, hpc, hframe⟩, fun hw hf => ?_⟩
  have htw : t.wait.active = false := by
    rw [exec_wait hexec (by simp), hw]
  obtain ⟨-, hdt, -⟩ := tick_running_timers htw
  have hsame : t.dt = s.dt := hframe .dt (by simp)
  refine ⟨_, step_fetched hw hf henc.2 hexec, ?_, ?_⟩
  · rw [tick_getV, hx]
  · rw [hdt, hsame]

theorem exec_ldDtVx (x : Reg) (s : State) : exec (.ldDtVx x) s = .next (advance { s with dt := s.getV x }) := rfl

theorem exec_ldStVx (x : Reg) (s : State) : exec (.ldStVx x) s = .next (advance { s with st := s.getV x }) := rfl

theorem soundActive_eq (s : State) : soundActive s = decide (0 < s.st.toNat) := by
  rw [soundActive, bne, beq_eq_decide, ← decide_not, decide_eq_decide, Nat.pos_iff_ne_zero]
  exact not_congr BitVec.toNat_eq

/-- Settles O50: the timer is set before the tick. -/
theorem timersAreSetAndTickInTheSameStep : Obligations.TimersAreSetAndTickInTheSameStep := by
  intro x s
  have hdt : EncodedAs (.ldDtVx x) 0xF0FF#16 0xF015#16 :=
    encodedAs_of_row (Laws.RowOfEncoding.ldDtVx x) rfl (by decide)
  have hst : EncodedAs (.ldStVx x) 0xF0FF#16 0xF018#16 :=
    encodedAs_of_row (Laws.RowOfEncoding.ldStVx x) rfl (by decide)
  refine ⟨hdt, hst, ⟨_, exec_ldDtVx x s, rfl, rfl, SameFields.sameBut {}⟩,
    ⟨_, exec_ldStVx x s, rfl, rfl, SameFields.sameBut {}⟩, fun hw hf => ?_, fun hw hf => ?_⟩
  · obtain ⟨-, htimers⟩ := tick_running_timers (s := advance { s with dt := s.getV x }) hw
    exact ⟨_, step_fetched hw hf hdt.2 (exec_ldDtVx x s), htimers⟩
  · obtain ⟨-, hdelay, hsound⟩ := tick_running_timers (s := advance { s with st := s.getV x }) hw
    refine ⟨_, step_fetched hw hf hst.2 (exec_ldStVx x s), hsound, hdelay, ?_⟩
    rw [soundActive_eq, hsound]
    simp

end Sys2Proof.Machine
end

section
/-! PROOFS. Drawing (44_display.md R161 to R163): a sprite is a list of pixel numbers, no pixel twice, flipped one
after another. -/

namespace Sys2Proof.Machine

/-! ## Flipping a list of pixels -/

/-- Flip the listed pixels one after another. -/
def flipPixels (ps : List Nat) (cv : Canvas) : Canvas := ps.foldl flipPixel cv

theorem flipPixels_append (ps qs : List Nat) (cv : Canvas) :
    flipPixels (ps ++ qs) cv = flipPixels qs (flipPixels ps cv) := List.foldl_append

/-- Pixels flipped once each: exactly they have changed. -/
theorem flipPixels_pixel {ps : List Nat} (hps : ∀ p ∈ ps, p < Config.nPixels) (hnodup : ps.Nodup) (cv : Canvas)
    (q : Nat) : screenPixel (flipPixels ps cv).1 q = (screenPixel cv.1 q ^^ decide (q ∈ ps)) := by
  induction ps generalizing cv with
  | nil => simp [flipPixels]
  | cons p ps ih =>
    obtain ⟨hp, hps⟩ := List.forall_mem_cons.mp hps
    obtain ⟨hnotin, hnodup⟩ := List.nodup_cons.mp hnodup
    rw [flipPixels, List.foldl_cons, ← flipPixels, ih hps hnodup, flipPixel_pixel cv hp, Bool.xor_assoc]
    congr 1
    by_cases hq : q = p
    · simp [hq, hnotin]
    · simp [hq]

/-- Pixels flipped once each collide if one of them was set before. -/
theorem flipPixels_collided {ps : List Nat} (hps : ∀ p ∈ ps, p < Config.nPixels) (hnodup : ps.Nodup) (cv : Canvas) :
    (flipPixels ps cv).2 = (cv.2 || ps.any (screenPixel cv.1)) := by
  induction ps generalizing cv with
  | nil => simp [flipPixels]
  | cons p ps ih =>
    obtain ⟨hp, hps⟩ := List.forall_mem_cons.mp hps
    obtain ⟨hnotin, hnodup⟩ := List.nodup_cons.mp hnodup
    have hrest : ps.any (screenPixel (flipPixel cv p).1) = ps.any (screenPixel cv.1) := by
      rw [Bool.eq_iff_iff, List.any_eq_true, List.any_eq_true]
      refine exists_congr fun q => and_congr_right fun hq => ?_
      rw [flipPixel_pixel cv hp, decide_eq_false (ne_of_mem_of_not_mem hq hnotin), Bool.xor_false]
    rw [flipPixels, List.foldl_cons, ← flipPixels, ih hps hnodup, hrest, List.any_cons, ← Bool.or_assoc]
    rfl

/-! ## The pixels of a sprite -/

/-- The pixels of the listed columns of one sprite row drawn at column `ox`, row `py`. -/
def columnPixels (row : Byte) (ox py : Nat) (cs : List Nat) : List Nat :=
  (cs.filter (spriteBit spriteMsbLeft row)).map fun c => pixelIndex (ox + c) py

/-- The pixels of a sprite drawn at column `ox`, row `py`. -/
def spritePixels (ox : Nat) : (py : Nat) → List Byte → List Nat
  | _, [] => []
  | py, row :: rows => columnPixels row ox py [0, 1, 2, 3, 4, 5, 6, 7] ++ spritePixels ox (py + 1) rows

theorem drawColumns_eq (row : Byte) (ox py : Nat) (cs : List Nat) (cv : Canvas) :
    drawColumns spriteMsbLeft row ox py cs cv = flipPixels (columnPixels row ox py cs) cv := by
  induction cs generalizing cv with
  | nil => rfl
  | cons c cs ih =>
    rw [drawColumns, ih]
    by_cases hbit : spriteBit spriteMsbLeft row c = true
    · simp [columnPixels, hbit, flipPixels]
    · simp [columnPixels, hbit]

theorem drawRows_eq (ox py : Nat) (rows : List Byte) (cv : Canvas) :
    drawRows spriteMsbLeft ox py rows cv = flipPixels (spritePixels ox py rows) cv := by
  induction rows generalizing py cv with
  | nil => rfl
  | cons row rows ih => rw [drawRows, ih, drawColumns_eq, spritePixels, flipPixels_append]

theorem mem_columnPixels {row : Byte} {ox py p : Nat} :
    p ∈ columnPixels row ox py [0, 1, 2, 3, 4, 5, 6, 7] ↔
      ∃ c < 8, row.getLsbD (7 - c) = true ∧ p = pixelIndex (ox + c) py := by
  have hcols : ∀ c, c ∈ [0, 1, 2, 3, 4, 5, 6, 7] ↔ c < 8 := fun c => List.mem_range (n := 8)
  simp only [columnPixels, List.mem_map, List.mem_filter, hcols, and_assoc, eq_comm (b := p)]
  rfl

/-- Row `r`, column `c` of a sprite is its pixel at `(ox + c, py + r)` where the bit is set. -/
theorem mem_spritePixels {ox py p : Nat} {rows : List Byte} :
    p ∈ spritePixels ox py rows ↔
      ∃ r, ∃ hr : r < rows.length, ∃ c < 8, rows[r].getLsbD (7 - c) = true ∧ p = pixelIndex (ox + c) (py + r) := by
  induction rows generalizing py with
  | nil => simp [spritePixels]
  | cons row rows ih =>
    rw [spritePixels, List.mem_append, mem_columnPixels, ih]
    constructor
    · rintro (⟨c, hc, hbit, rfl⟩ | ⟨r, hr, c, hc, hbit, rfl⟩)
      · exact ⟨0, by simp, c, hc, hbit, rfl⟩
      · exact ⟨r + 1, by simpa using hr, c, hc, hbit, by rw [Nat.add_assoc, Nat.add_comm 1]⟩
    · rintro ⟨r, hr, c, hc, hbit, rfl⟩
      cases r with
      | zero => exact .inl ⟨c, hc, hbit, rfl⟩
      | succ r =>
        exact .inr ⟨r, by simpa using hr, c, hc, hbit, by rw [Nat.add_assoc, Nat.add_comm 1]⟩

theorem nodup_columnPixels (row : Byte) (ox py : Nat) :
    (columnPixels row ox py [0, 1, 2, 3, 4, 5, 6, 7]).Nodup := by
  refine List.Nodup.map_on (fun c hc d hd h => ?_) (List.Nodup.filter _ (by decide))
  have hcols : ∀ c ∈ [0, 1, 2, 3, 4, 5, 6, 7], c < 8 := by decide
  have hc := hcols c (List.mem_filter.mp hc).1
  have hd := hcols d (List.mem_filter.mp hd).1
  simp only [pixelIndex, Config.fbHeight, Config.fbWidth] at h
  omega

/-- Eight columns and at most 32 rows wrap onto no pixel twice (R163). -/
theorem nodup_spritePixels (ox py : Nat) {rows : List Byte} (h : rows.length ≤ 32) :
    (spritePixels ox py rows).Nodup := by
  induction rows generalizing py with
  | nil => exact List.nodup_nil
  | cons row rows ih =>
    simp only [List.length_cons] at h
    refine List.nodup_append.mpr ⟨nodup_columnPixels row ox py, ih (py + 1) (by omega), ?_⟩
    intro p hp q hq
    obtain ⟨c, hc, -, rfl⟩ := mem_columnPixels.mp hp
    obtain ⟨r, hr, d, hd, -, rfl⟩ := mem_spritePixels.mp hq
    simp only [pixelIndex, Config.fbHeight, Config.fbWidth]
    omega

theorem lt_of_mem_spritePixels {ox py p : Nat} {rows : List Byte} (h : p ∈ spritePixels ox py rows) :
    p < Config.nPixels := by
  obtain ⟨r, -, c, -, -, rfl⟩ := mem_spritePixels.mp h
  exact pixelIndex_lt _ _

/-! ## The instruction -/

/-- The pixels `DXYN` flips. -/
def drwPixels (s : State) (x y : Reg) (n : Nibble) : List Nat :=
  spritePixels (s.getV x).toNat (s.getV y).toNat (readCells s.mem s.i.toNat n.toNat)

theorem mem_drwPixels {s : State} {x y : Reg} {n : Nibble} {p : Nat} :
    p ∈ drwPixels s x y n ↔ SpriteCovers s x y n p := by
  simp only [drwPixels, mem_spritePixels, readCells_length, readCells_getElem]
  constructor
  · rintro ⟨r, hr, c, hc, hbit, rfl⟩
    exact ⟨r, c, hr, hc, hbit, rfl⟩
  · rintro ⟨r, c, hr, hc, hbit, rfl⟩
    exact ⟨r, hr, c, hc, hbit, rfl⟩

theorem lt_of_mem_drwPixels {s : State} {x y : Reg} {n : Nibble} {p : Nat} (h : p ∈ drwPixels s x y n) :
    p < Config.nPixels := lt_of_mem_spritePixels h

theorem nodup_drwPixels (s : State) (x y : Reg) (n : Nibble) : (drwPixels s x y n).Nodup := by
  have := n.isLt
  exact nodup_spritePixels _ _ (by rw [readCells_length]; omega)

theorem drawn_eq (s : State) (x y : Reg) (n : Nibble) : drawn x y n s = flipPixels (drwPixels s x y n) (s.fb, false) :=
  drawRows_eq _ _ _ _

theorem drawn_pixel (s : State) (x y : Reg) (n : Nibble) (p : Nat) :
    screenPixel (drawn x y n s).1 p = (s.pixel p ^^ decide (p ∈ drwPixels s x y n)) := by
  rw [drawn_eq, flipPixels_pixel (fun _ => lt_of_mem_drwPixels) (nodup_drwPixels s x y n)]
  rfl

theorem drawn_collided (s : State) (x y : Reg) (n : Nibble) :
    (drawn x y n s).2 = (drwPixels s x y n).any s.pixel := by
  rw [drawn_eq, flipPixels_collided (fun _ => lt_of_mem_drwPixels) (nodup_drwPixels s x y n), Bool.false_or]
  rfl

/-- Settles O45: the sprite's pixels are flipped once each, so a covered pixel collides if it was set before. -/
theorem drawFlipsExactlyTheSprite : Obligations.DrawFlipsExactlyTheSprite := by
  intro x y n s
  refine ⟨encodedAs_of_row (Laws.RowOfEncoding.drw x y n) rfl (by decide), fun hi => ?_, exec_drw_outside⟩
  have hvf := State.getV_setV_self { s with fb := (drawn x y n s).1 } vf (collisionFlag (drawn x y n s).2)
  refine ⟨_, exec_drw_inside hi, fun p hp => ?_, fun p hp => ?_, ?_, fun hunset => ?_,
    fun r hr => State.getV_setV_ne hr _, rfl, SameFields.sameBut {}⟩
  · refine (drawn_pixel s x y n p).trans ?_
    rw [decide_eq_true (mem_drwPixels.mpr hp), Bool.xor_true]
  · refine (drawn_pixel s x y n p).trans ?_
    rw [decide_eq_false (mem_drwPixels.not.mpr hp), Bool.xor_false]
  · rintro ⟨p, hp, hset⟩
    refine hvf.trans ?_
    rw [drawn_collided, List.any_eq_true.mpr ⟨p, mem_drwPixels.mpr hp, hset⟩]
    rfl
  · refine hvf.trans ?_
    rw [drawn_collided, List.any_eq_false.mpr fun p hp => by simp [hunset p (mem_drwPixels.mp hp)]]
    rfl

/-- Which pixels a sprite covers is told by memory, `I` and the two registers. -/
theorem spriteCovers_congr {s u : State} {x y : Reg} (hmem : ∀ a, u.byteAt a = s.byteAt a) (hi : u.i = s.i)
    (hx : u.getV x = s.getV x) (hy : u.getV y = s.getV y) (n : Nibble) (p : Nat) :
    SpriteCovers u x y n p ↔ SpriteCovers s x y n p := by
  simp only [SpriteCovers, hmem, hi, hx, hy]

/-- Settles O46: the second draw flips the same pixels again, and finds set what the first found unset. -/
theorem drawingTwiceRestoresTheScreen : Obligations.DrawingTwiceRestoresTheScreen := by
  intro x y n s t u hdraw hmem hi hx hy hscreen
  obtain ⟨hin, -⟩ := exec_drw_next hdraw
  obtain ⟨t', ht', hflip, hkeep, -⟩ := (drawFlipsExactlyTheSprite x y n s).2.1 hin
  obtain rfl := Host.Outcome.next.inj (hdraw.symm.trans ht')
  obtain ⟨v, hv, hflip', hkeep', hset, hunset, -⟩ := (drawFlipsExactlyTheSprite x y n u).2.1 (by rwa [hi])
  have hcov := spriteCovers_congr hmem hi hx hy n
  refine ⟨v, hv, fun p => ?_, ?_, fun hall => hunset fun p hp => ?_⟩
  · by_cases hp : SpriteCovers s x y n p
    · rw [hflip' p ((hcov p).mpr hp), hscreen, hflip p hp, Bool.not_not]
    · rw [hkeep' p ((hcov p).not.mpr hp), hscreen, hkeep p hp]
  · rintro ⟨p, hp, hclear⟩
    exact hset ⟨p, (hcov p).mpr hp, by rw [hscreen, hflip p hp, hclear, Bool.not_false]⟩
  · have hp' := (hcov p).mp hp
    rw [hscreen, hflip p hp', hall p hp', Bool.not_true]

end Sys2Proof.Machine
end
